-- ==== Sys2Proof/Word.lean ====
section
/-! DEFINITION. The word types of the block: bytes, 32-bit words, and the 128-bit block of four
words that DIN, DOUT and the AES state S are held in (spec/00_scope.md R11, R14). -/

namespace Sys2Proof

/-- A byte: an element of GF(2^8) (spec/41_tables.md R131). -/
abbrev Byte := BitVec 8

/-- A word is 32 bits (spec/00_scope.md R11). -/
abbrev Word := BitVec 32

/-- One 38-bit host transaction word (spec/30_encoding.md R80). -/
abbrev HtWord := BitVec 38

/-- Four words, one per column: `c0` is word 0 (spec/00_scope.md R11, R14). -/
structure Block where
  c0 : Word
  c1 : Word
  c2 : Word
  c3 : Word
deriving DecidableEq, Repr

end Sys2Proof
end

