-- ==== Sys2Proof/Syntax.lean ====
section
/-! DEFINITION. The instructions of the block: its host transactions, one constructor per row of
spec/opcode_table.json (spec/30_encoding.md R85). Bits that a row ignores are no operand (log 13). -/

namespace Sys2Proof

/-- A host transaction. `idx` is the IDX field, `data` the DATA field, `keylen` the field
`DATA[13:8]` and `cmd` the field `DATA[2:0]` of a CTRL write (spec/30_encoding.md R80, R81). -/
inductive Instr where
  /-- READ_REG: WE = 0, any IDX. -/
  | readReg (idx : BitVec 5)
  /-- NOP: CTRL write with CMD = 0. -/
  | nop (keylen : BitVec 6)
  /-- LOAD_KEY: CTRL write with CMD = 1. -/
  | loadKey (keylen : BitVec 6)
  /-- ENCRYPT: CTRL write with CMD = 2. -/
  | encrypt (keylen : BitVec 6)
  /-- DECRYPT: CTRL write with CMD = 3. -/
  | decrypt (keylen : BitVec 6)
  /-- CLEAR_KEY: CTRL write with CMD = 4. -/
  | clearKey (keylen : BitVec 6)
  /-- ILLEGAL_CMD, first row: CTRL write with CMD = 5. -/
  | illegalCmd5 (keylen : BitVec 6)
  /-- ILLEGAL_CMD, second row: CTRL write with CMD = 6 or 7. -/
  | illegalCmd6or7 (cmd : BitVec 3) (keylen : BitVec 6)
  /-- WRITE_STATUS: write to IDX 1. -/
  | writeStatus
  /-- WRITE_RSVD, first row: write to IDX 2..3. -/
  | writeRsvd2to3 (idx : BitVec 5)
  /-- WRITE_RSVD, second row: write to IDX 4..7. -/
  | writeRsvd4to7 (idx : BitVec 5)
  /-- WRITE_KEY: write to IDX 8..15. -/
  | writeKey (idx : BitVec 5) (data : Word)
  /-- WRITE_DIN: write to IDX 16..19. -/
  | writeDin (idx : BitVec 5) (data : Word)
  /-- WRITE_DOUT: write to IDX 20..23. -/
  | writeDout (idx : BitVec 5)
  /-- WRITE_RSVD, third row: write to IDX 24..31. -/
  | writeRsvd24to31 (idx : BitVec 5)
deriving DecidableEq, Repr

end Sys2Proof
end

