-- ==== Sys2Proof/WellFormed.lean ====
section
/-! DEFINITION. Which instruction terms stand for a host transaction: the operand ranges of the
rows of spec/30_encoding.md R85. -/

namespace Sys2Proof

/-- IDX lies in the row's range (spec/30_encoding.md R85, column IDX). -/
def idxIn (lo hi : Nat) (idx : BitVec 5) : Bool := lo ≤ idx.toNat && idx.toNat ≤ hi

/-- The term's operands are ones its row encodes. -/
def Instr.wellFormed : Instr → Bool
  | .readReg _ => true
  | .nop _ => true
  | .loadKey _ => true
  | .encrypt _ => true
  | .decrypt _ => true
  | .clearKey _ => true
  | .illegalCmd5 _ => true
  | .illegalCmd6or7 cmd _ => cmd == 6#3 || cmd == 7#3
  | .writeStatus => true
  | .writeRsvd2to3 idx => idxIn 2 3 idx
  | .writeRsvd4to7 idx => idxIn 4 7 idx
  | .writeKey idx _ => idxIn 8 15 idx
  | .writeDin idx _ => idxIn 16 19 idx
  | .writeDout idx => idxIn 20 23 idx
  | .writeRsvd24to31 idx => idxIn 24 31 idx

end Sys2Proof
end

