-- ==== Sys2Proof/Decode.lean ====
section
/-! DEFINITION. The decoder and the encoder of host transaction words (spec/30_encoding.md R80,
R81, R82, R85), and the opcode table as data. -/

namespace Sys2Proof

/-! ## Fields -/

/-- WE, bit 37 (R80). -/
def htWe (w : HtWord) : BitVec 1 := w.extractLsb' 37 1

/-- IDX, bits 36..32 (R80). -/
def htIdx (w : HtWord) : BitVec 5 := w.extractLsb' 32 5

/-- DATA, bits 31..0 (R80). -/
def htData (w : HtWord) : Word := w.extractLsb' 0 32

/-- CMD, bits 2..0 of DATA (R81). -/
def cwCmd (data : Word) : BitVec 3 := data.extractLsb' 0 3

/-- KEYLEN, bits 13..8 of DATA (R81). -/
def cwKeylen (data : Word) : BitVec 6 := data.extractLsb' 8 6

/-- A host transaction from its fields (R80). -/
def mkHt (we : BitVec 1) (idx : BitVec 5) (data : Word) : HtWord := we ++ idx ++ data

/-- A command word from its fields, the ignored bits 31..14 and 7..3 zero (R81). -/
def mkCw (keylen : BitVec 6) (cmd : BitVec 3) : Word := 0#18 ++ keylen ++ 0#5 ++ cmd

/-! ## Decoding -/

/-- Why a number is no host transaction. -/
inductive DecodeError where
  /-- The number does not fit in 38 bits: HT is the only format and it is 38 bits wide (R80). -/
  | widerThan38Bits
deriving DecidableEq, Repr

/-- The command of a CTRL write, by `DATA[2:0]` (R82, spec/40_host_interface.md R105). -/
def decodeCommand (data : Word) : Instr :=
  let cmd := cwCmd data
  let keylen := cwKeylen data
  if cmd = 0#3 then .nop keylen
  else if cmd = 1#3 then .loadKey keylen
  else if cmd = 2#3 then .encrypt keylen
  else if cmd = 3#3 then .decrypt keylen
  else if cmd = 4#3 then .clearKey keylen
  else if cmd = 5#3 then .illegalCmd5 keylen
  else .illegalCmd6or7 cmd keylen

/-- A write transaction, by IDX (R85). -/
def decodeWrite (idx : BitVec 5) (data : Word) : Instr :=
  let n := idx.toNat
  if n = 0 then decodeCommand data
  else if n = 1 then .writeStatus
  else if n ≤ 3 then .writeRsvd2to3 idx
  else if n ≤ 7 then .writeRsvd4to7 idx
  else if n ≤ 15 then .writeKey idx data
  else if n ≤ 19 then .writeDin idx data
  else if n ≤ 23 then .writeDout idx
  else .writeRsvd24to31 idx

/-- Every 38-bit HT word decodes: WE first, then IDX, then the command (R80, R85, R86). -/
def decodeHt (w : HtWord) : Instr :=
  if htWe w = 0#1 then .readReg (htIdx w) else decodeWrite (htIdx w) (htData w)

/-- The decoder on any number: one that fits in 38 bits is a host transaction, any other is
rejected by name (log 14). -/
def decode (n : Nat) : Except DecodeError Instr :=
  if n < 2 ^ 38 then .ok (decodeHt (BitVec.ofNat 38 n)) else .error .widerThan38Bits

/-! ## Encoding -/

/-- The HT word of an instruction. Bits its row ignores are zero (R85; log 13). -/
def encode : Instr → HtWord
  | .readReg idx => mkHt 0#1 idx 0#32
  | .nop keylen => mkHt 1#1 0#5 (mkCw keylen 0#3)
  | .loadKey keylen => mkHt 1#1 0#5 (mkCw keylen 1#3)
  | .encrypt keylen => mkHt 1#1 0#5 (mkCw keylen 2#3)
  | .decrypt keylen => mkHt 1#1 0#5 (mkCw keylen 3#3)
  | .clearKey keylen => mkHt 1#1 0#5 (mkCw keylen 4#3)
  | .illegalCmd5 keylen => mkHt 1#1 0#5 (mkCw keylen 5#3)
  | .illegalCmd6or7 cmd keylen => mkHt 1#1 0#5 (mkCw keylen cmd)
  | .writeStatus => mkHt 1#1 1#5 0#32
  | .writeRsvd2to3 idx => mkHt 1#1 idx 0#32
  | .writeRsvd4to7 idx => mkHt 1#1 idx 0#32
  | .writeKey idx data => mkHt 1#1 idx data
  | .writeDin idx data => mkHt 1#1 idx data
  | .writeDout idx => mkHt 1#1 idx 0#32
  | .writeRsvd24to31 idx => mkHt 1#1 idx 0#32

/-! ## The opcode table as data -/

/-- The bits a row tests and the value they must have: a word `x` selects the row when
`x AND mask = match` (R85). `used` are the bits the row reads at all: the tested ones and the
operand bits `i`, `d`, `k` of its encoding string (the bits that are not `x`). -/
structure OpcodeRow where
  pattern : HtWord
  mask : HtWord
  used : HtWord
deriving DecidableEq, Repr

/-- The word selects the row (R85). -/
def OpcodeRow.selects (r : OpcodeRow) (w : HtWord) : Bool := w &&& r.mask == r.pattern

/-- The row of each instruction, `match` and `mask` as spec/opcode_table.json gives them. -/
def Instr.row : Instr → OpcodeRow
  | .readReg _ => ⟨0x0000000000#38, 0x2000000000#38, 0x3f00000000#38⟩
  | .nop _ => ⟨0x2000000000#38, 0x3f00000007#38, 0x3f00003f07#38⟩
  | .loadKey _ => ⟨0x2000000001#38, 0x3f00000007#38, 0x3f00003f07#38⟩
  | .encrypt _ => ⟨0x2000000002#38, 0x3f00000007#38, 0x3f00003f07#38⟩
  | .decrypt _ => ⟨0x2000000003#38, 0x3f00000007#38, 0x3f00003f07#38⟩
  | .clearKey _ => ⟨0x2000000004#38, 0x3f00000007#38, 0x3f00003f07#38⟩
  | .illegalCmd5 _ => ⟨0x2000000005#38, 0x3f00000007#38, 0x3f00003f07#38⟩
  | .illegalCmd6or7 _ _ => ⟨0x2000000006#38, 0x3f00000006#38, 0x3f00003f07#38⟩
  | .writeStatus => ⟨0x2100000000#38, 0x3f00000000#38, 0x3f00000000#38⟩
  | .writeRsvd2to3 _ => ⟨0x2200000000#38, 0x3e00000000#38, 0x3f00000000#38⟩
  | .writeRsvd4to7 _ => ⟨0x2400000000#38, 0x3c00000000#38, 0x3f00000000#38⟩
  | .writeKey _ _ => ⟨0x2800000000#38, 0x3800000000#38, 0x3fffffffff#38⟩
  | .writeDin _ _ => ⟨0x3000000000#38, 0x3c00000000#38, 0x3fffffffff#38⟩
  | .writeDout _ => ⟨0x3400000000#38, 0x3c00000000#38, 0x3f00000000#38⟩
  | .writeRsvd24to31 _ => ⟨0x3800000000#38, 0x3800000000#38, 0x3f00000000#38⟩

/-- The fifteen rows in the table's order. -/
def opcodeRows : List OpcodeRow :=
  [Instr.row (.readReg 0#5), Instr.row (.nop 0#6), Instr.row (.loadKey 0#6),
    Instr.row (.encrypt 0#6), Instr.row (.decrypt 0#6), Instr.row (.clearKey 0#6),
    Instr.row (.illegalCmd5 0#6), Instr.row (.illegalCmd6or7 6#3 0#6)] ++
  [Instr.row .writeStatus, Instr.row (.writeRsvd2to3 2#5), Instr.row (.writeRsvd4to7 4#5),
    Instr.row (.writeKey 8#5 0#32), Instr.row (.writeDin 16#5 0#32),
    Instr.row (.writeDout 20#5), Instr.row (.writeRsvd24to31 24#5)]

/-! ## The host's entry -/

/-- The instruction the decoder reads from a word given as a number whose bit 0 is the least
significant bit, as spec/opcode_table.json numbers it; bits from `nbits` up are zero. -/
def decodeTableWord (nbits w : Nat) : Option Instr :=
  match decode (w % 2 ^ nbits) with
  | .ok i => some i
  | .error _ => none

end Sys2Proof
end

