-- ==== Sys2Proof/Machine/Bytes.lean ====
section
/-! DEFINITION. Bytes of a word, big-endian packing, rotation, and columns of a block
(spec/00_scope.md R11, R12, R14, spec/20_memory.md R61). -/

namespace Sys2Proof.Machine

/-- `byte_k(w) = w[31-8k : 24-8k]`: byte 0 is the most significant (spec/00_scope.md R11). -/
def byteAt (k : Fin 4) (w : Word) : Byte := w.extractLsb' (24 - 8 * k.val) 8

/-- Big-endian packing: `b0` is the most significant byte (spec/00_scope.md R11). -/
def pack (b0 b1 b2 b3 : Byte) : Word := b0 ++ b1 ++ b2 ++ b3

/-- Rotation of a word left by `n` bits (spec/00_scope.md R12). -/
def rotl32 (w : Word) (n : Nat) : Word := w.rotateLeft n

/-- Word `c` of a block: column `c` (spec/00_scope.md R14). -/
def column (b : Block) (c : Fin 4) : Word :=
  match c with
  | 0 => b.c0
  | 1 => b.c1
  | 2 => b.c2
  | 3 => b.c3

/-- The block with word `c` replaced. -/
def setColumn (b : Block) (c : Fin 4) (v : Word) : Block :=
  match c with
  | 0 => { b with c0 := v }
  | 1 => { b with c1 := v }
  | 2 => { b with c2 := v }
  | 3 => { b with c3 := v }

/-- The block whose word `c` is `f c`: the spec's `for c in 0..3`. -/
def ofColumns (f : Fin 4 → Word) : Block := ⟨f 0, f 1, f 2, f 3⟩

/-- `s[r][c]`, the byte in row `r` and column `c` (spec/00_scope.md R14). -/
def cell (b : Block) (r c : Fin 4) : Byte := byteAt r (column b c)

/-- Byte `j` of a block's 16-byte buffer: `byte_(j mod 4)` of word `j div 4`
(spec/20_memory.md R61). -/
def blockByte (b : Block) (j : Fin 16) : Byte :=
  cell b (Fin.ofNat 4 (j.val % 4)) (Fin.ofNat 4 (j.val / 4))

/-- Word-wise exclusive or of two blocks. -/
def xorBlock (a b : Block) : Block := ofColumns fun c => column a c ^^^ column b c

end Sys2Proof.Machine
end

