-- ==== Sys2Proof/Config.lean ====
section
/-! DEFINITION. The implementation parameters of spec/00_scope.md R9: the ones the spec fixes, as
numbers, and the two it leaves OPEN, as uninterpreted constants that no rule reads (log 11). -/

namespace Sys2Proof.Config

/-- Words of the schedule store `W[0..59]` (spec/00_scope.md R9, spec/10_state.md R32). -/
abbrev scheduleWords : Nat := 60

/-- Entries of RCON (spec/00_scope.md R9, decision D24). -/
abbrev rconEntries : Nat := 30

/-- `CYCLES_PER_STEP`, clock cycles per core micro-step: OPEN, no rule depends on it
(spec/70_reset_and_hazards.md R280, decision D34). -/
opaque cyclesPerStep : Nat

/-- `BUS_ADDRESS_MAP`, from a platform byte address to a register index: OPEN, the platform's
(spec/20_memory.md R63, R66, decision D40). -/
opaque busAddressMap : Nat → Option (BitVec 5)

end Sys2Proof.Config
end

