-- ==== Sys2Proof/Machine/State.lean ====
section
/-! DEFINITION. The state of the block (spec/10_state.md R20), the reasons a step can stop, and the
state after reset (spec/10_state.md R39, spec/70_reset_and_hazards.md R270). -/

namespace Sys2Proof.Machine

/-- The sequencer's phase (spec/10_state.md R34). -/
inductive Phase where
  | idle
  | expand
  | enc
  | dec
deriving DecidableEq, Repr

/-- What may happen next, from outside the block's own rules: the inputs and the interleaving
(spec/00_scope.md R15, spec/70_reset_and_hazards.md R270, R278; log 2). -/
inductive Event where
  /-- The host performs the transaction of this HT word (spec/40_host_interface.md R100). -/
  | host (ht : HtWord)
  /-- It is the core's turn: one micro-step if BUSY (spec/00_scope.md R15). -/
  | core
  /-- The reset event (spec/70_reset_and_hazards.md R270). -/
  | reset
deriving DecidableEq, Repr

/-- The machine's state: every element of spec/10_state.md R20 that a rule writes, then the two
lists that hold the outside world's side of the interface (logs 2 and 4). The constant arrays
SBOX, INVSBOX and RCON are in Machine/Tables.lean (R37; log 8). -/
structure State where
  /-- `CTRL_CMD`, last written command field (R23). -/
  ctrlCmd : BitVec 3
  /-- `CTRL_KEYLEN`, last written key length in bytes (R23). -/
  ctrlKeylen : BitVec 6
  /-- `KEY[0..7]`, key holding registers (R28). -/
  key : Vector Word 8
  /-- `DIN[0..3]`, input block holding registers (R30). -/
  din : Block
  /-- `DOUT[0..3]`, output block registers (R31). -/
  dout : Block
  /-- `phase`, sequencer state (R34). -/
  phase : Phase
  /-- `KEY_VALID`, a complete schedule is held (R25). -/
  keyValid : Bool
  /-- `DONE`, last accepted operation completed (R25). -/
  done : Bool
  /-- `ERR`, outcome code of the last command write (R26, R27). -/
  err : BitVec 3
  /-- `Nk`, key length in words (R33). -/
  nk : BitVec 4
  /-- `Nr`, number of rounds (R33). -/
  nr : BitVec 4
  /-- `W[0..59]`, round key schedule (R32). -/
  w : Vector Word 60
  /-- `i`, next schedule word index during EXPAND (R36). -/
  i : BitVec 6
  /-- `rnd`, next round number during ENC or DEC (R36). -/
  rnd : BitVec 4
  /-- `S[0..3]`, AES state during ENC or DEC (R35). -/
  st : Block
  /-- Pending events, the next one first: the model's own field (log 2). -/
  events : List Event
  /-- Every RDATA the host has received, oldest first: the model's own field (log 4). -/
  responses : List Word
deriving DecidableEq, Repr

/-- Why the machine stops with a fault. Both are assertions of invariants the spec says hold in
every reachable state and a model may assert (spec/10_state.md R36, R38; log 6). -/
inductive Fault where
  /-- A micro-step found its counter, or Nk and Nr, outside the ranges of spec/10_state.md R33 and
  R36. Raised by the core micro-steps. Safe: no run from reset reaches it. -/
  | counterOutOfRange (phase : Phase)
  /-- DECRYPT was accepted with Nk and Nr that belong to no key context, so round key Nr has no
  value (spec/10_state.md R33, R38 items 4 and 5). Raised by DECRYPT's acceptance. Safe: no run
  from reset reaches it. -/
  | noKeyContext
deriving DecidableEq, Repr

/-- Why an instruction has no meaning. -/
inductive Refusal where
  /-- The instruction has no meaning in this model yet. Raised by exec's arms only; every
  instruction of the table has its meaning, so no arm raises it. Safe. -/
  | notModelled (mnemonic : String)
deriving DecidableEq, Repr

/-- The outcome of a step of this machine. -/
abbrev Result := Host.Outcome State Fault Refusal

/-- A block of four zero words. -/
def zeroBlock : Block := ⟨0, 0, 0, 0⟩

/-- The state after reset (spec/10_state.md R39). `nk`, `nr`, `w`, `i`, `rnd` and `st` have no
value there; zero is the model's (log 1). -/
def State.reset : State where
  ctrlCmd := 0
  ctrlKeylen := 0
  key := Vector.replicate 8 0
  din := zeroBlock
  dout := zeroBlock
  phase := .idle
  keyValid := false
  done := false
  err := 0
  nk := 0
  nr := 0
  w := Vector.replicate 60 0
  i := 0
  rnd := 0
  st := zeroBlock
  events := []
  responses := []

end Sys2Proof.Machine
end

