-- ==== Sys2Proof/Machine/Operands.lean ====
section
/-! DEFINITION. Operand forms: the register an IDX names, KEYLEN, and the implicit register
operands of the commands (spec/10_state.md R22, spec/30_encoding.md R83, R84). -/

namespace Sys2Proof.Machine

/-- A host-visible register (spec/10_state.md R22). -/
inductive Reg where
  | ctrl
  | status
  | key (j : Fin 8)
  | din (c : Fin 4)
  | dout (c : Fin 4)
  | reserved
deriving DecidableEq, Repr

/-- The register of an index (spec/10_state.md R22). -/
def regOf (idx : BitVec 5) : Reg :=
  let n := idx.toNat
  if n = 0 then .ctrl
  else if n = 1 then .status
  else if n ≤ 7 then .reserved
  else if n ≤ 15 then .key (Fin.ofNat 8 (n - 8))
  else if n ≤ 19 then .din (Fin.ofNat 4 (n - 16))
  else if n ≤ 23 then .dout (Fin.ofNat 4 (n - 20))
  else .reserved

/-- LOAD_KEY accepts KEYLEN in {16, 24, 32} only (spec/30_encoding.md R83). -/
def keylenAccepted (keylen : BitVec 6) : Bool := keylen == 16#6 || keylen == 24#6 || keylen == 32#6

/-- `KEYLEN div 4`, the key length in words (spec/30_encoding.md R83). -/
def keyWords (keylen : BitVec 6) : Nat := keylen.toNat / 4

/-- Key byte `j`: `byte_(j mod 4)` of `KEY[j div 4]` (spec/10_state.md R28). -/
def keyByte (key : Vector Word 8) (j : Fin 32) : Byte :=
  byteAt (Fin.ofNat 4 (j.val % 4)) (key.getD (j.val / 4) 0)

end Sys2Proof.Machine
end

