-- ==== Sys2Proof/Machine/Flags.lean ====
section
/-! DEFINITION. CTRL and STATUS as words, and the ERR codes (spec/10_state.md R23, R25, R26). -/

namespace Sys2Proof.Machine

/-- The outcomes ERR can report; codes 2, 6 and 7 are reserved and never produced
(spec/10_state.md R26). -/
inductive ErrCode where
  | none
  | invalidKeySize
  | noKey
  | busy
  | illegalCmd
deriving DecidableEq, Repr

/-- The 3-bit code of an outcome (spec/10_state.md R26). -/
def ErrCode.code : ErrCode → BitVec 3
  | .none => 0#3
  | .invalidKeySize => 1#3
  | .noKey => 3#3
  | .busy => 4#3
  | .illegalCmd => 5#3

/-- A one-bit field as a word. -/
def flagWord (b : Bool) : Word := (BitVec.ofBool b).setWidth 32

/-- BUSY (spec/10_state.md R25). -/
def busy (s : State) : Bool := s.phase != .idle

/-- STATUS.NR (spec/10_state.md R25). -/
def statusNr (s : State) : BitVec 4 := if s.keyValid then s.nr else 0

/-- STATUS.KSLEN, `4 * (Nr + 1)` words of schedule (spec/10_state.md R25). -/
def statusKslen (s : State) : BitVec 6 :=
  if s.keyValid then BitVec.ofNat 6 (4 * (s.nr.toNat + 1)) else 0

/-- What a read of STATUS returns (spec/10_state.md R25). -/
def statusWord (s : State) : Word :=
  ((statusKslen s).setWidth 32 <<< 16) ||| ((statusNr s).setWidth 32 <<< 8) |||
    (s.err.setWidth 32 <<< 4) ||| (flagWord s.done <<< 2) ||| (flagWord s.keyValid <<< 1) |||
    flagWord (busy s)

/-- What a read of CTRL returns (spec/10_state.md R23). -/
def ctrlWord (s : State) : Word :=
  (s.ctrlKeylen.setWidth 32 <<< 8) ||| s.ctrlCmd.setWidth 32

end Sys2Proof.Machine
end

