-- ==== Sys2Proof/Machine/Ops.lean ====
section
/-! DEFINITION. The operations the meanings share: register access, the command write's store,
raising an error, accepting a command, reading the schedule, and reset. The block has no memory
(spec/20_memory.md R60) and no trap (spec/60_exceptions.md R255): raising an error is the whole
of an exception here, and there is no return from one (R256). -/

namespace Sys2Proof.Machine

/-! ## Host registers -/

/-- `RegRead(IDX)`, the RDATA of a read (spec/40_host_interface.md R101). -/
def regRead (s : State) (idx : BitVec 5) : Word :=
  match regOf idx with
  | .ctrl => ctrlWord s
  | .status => statusWord s
  | .key _ => 0
  | .din c => column s.din c
  | .dout c => column s.dout c
  | .reserved => 0

/-- `RegWrite(IDX, v)` for an index other than CTRL's (spec/40_host_interface.md R102). -/
def regWrite (idx : BitVec 5) (data : Word) (s : State) : State :=
  match regOf idx with
  | .key j => { s with key := s.key.set j.val data }
  | .din c => { s with din := setColumn s.din c data }
  | .ctrl => s
  | .status => s
  | .dout _ => s
  | .reserved => s

/-- A write to a read-only or reserved index: ignored, not an error
(spec/40_host_interface.md R102, spec/10_state.md R29). -/
def ignoreWrite (s : State) : State := s

/-- RDATA goes to the host in the same step (spec/30_encoding.md R80; log 4). -/
def respond (rdata : Word) (s : State) : State := { s with responses := s.responses ++ [rdata] }

/-! ## Commands -/

/-- The store of a command write's fields (spec/40_host_interface.md R103). -/
def storeCtrl (cmd : BitVec 3) (keylen : BitVec 6) (s : State) : State :=
  { s with ctrlCmd := cmd, ctrlKeylen := keylen }

/-- `raise E`: ERR becomes the code of E, with no other effect (spec/00_scope.md R13,
spec/60_exceptions.md R250, R251, R255). -/
def raise (e : ErrCode) (s : State) : State := { s with err := e.code }

/-- What every acceptance of LOAD_KEY, ENCRYPT and DECRYPT sets: ERR, DONE and the phase
(spec/40_host_interface.md R106). -/
def accept (p : Phase) (s : State) : State :=
  { s with err := ErrCode.none.code, done := false, phase := p }

/-- The BUSY check of commands 1 to 4 (spec/40_host_interface.md R106, R108). -/
def unlessBusy (s : State) (run : State → Result) : Result :=
  if s.phase = .idle then run s else .next (raise .busy s)

/-- The NO_KEY check of ENCRYPT and DECRYPT (spec/40_host_interface.md R106, R108). -/
def unlessNoKey (s : State) (run : State → Result) : Result :=
  if s.keyValid then run s else .next (raise .noKey s)

/-! ## The key context -/

/-- Nk in {4, 6, 8} and Nr = Nk + 6 (spec/10_state.md R33, R38 item 4). -/
def contextOk (s : State) : Bool :=
  (s.nk == 4#4 && s.nr == 10#4) || (s.nk == 6#4 && s.nr == 12#4) || (s.nk == 8#4 && s.nr == 14#4)

/-- Round key `r`: the words `W[4r .. 4r+3]` (spec/43_forward_round.md R184). -/
def roundKey (w : Vector Word 60) (r : Nat) : Block := ofColumns fun c => w.getD (4 * r + c.val) 0

/-- AddRoundKey (spec/43_forward_round.md R184). -/
def addRoundKey (w : Vector Word 60) (b : Block) (r : Nat) : Block := xorBlock b (roundKey w r)

/-- The end of an ENCRYPT or DECRYPT: the four words of DOUT, DONE and the phase, in one step
(spec/10_state.md R31, spec/43_forward_round.md R186, spec/44_inverse_round.md R206). -/
def deliver (result : Block) (s : State) : State :=
  { s with st := result, dout := result, done := true, phase := .idle }

/-! ## Reset -/

/-- The reset event: every element of the block at its reset value, in one step; what the host has
sent and received stays (spec/70_reset_and_hazards.md R270, R271; log 5). -/
def resetBlock (s : State) : State :=
  { State.reset with events := s.events, responses := s.responses }

end Sys2Proof.Machine
end

