-- ==== Sys2Proof/Machine/Command.lean ====
section
/-! DEFINITION. Family: the command writes that start no operation
(spec/40_host_interface.md R107, R109). -/

namespace Sys2Proof.Machine

/-- NOP: the CTRL fields, nothing else, whether BUSY or not (spec/40_host_interface.md R107). -/
def execNop (keylen : BitVec 6) (s : State) : Result := .next (storeCtrl 0#3 keylen s)

/-- ILLEGAL_CMD with CMD = 5, checked before BUSY (spec/40_host_interface.md R109). -/
def execIllegalCmd5 (keylen : BitVec 6) (s : State) : Result :=
  .next (raise .illegalCmd (storeCtrl 5#3 keylen s))

/-- ILLEGAL_CMD with CMD = 6 or 7, checked before BUSY (spec/40_host_interface.md R109). -/
def execIllegalCmd6or7 (cmd : BitVec 3) (keylen : BitVec 6) (s : State) : Result :=
  .next (raise .illegalCmd (storeCtrl cmd keylen s))

end Sys2Proof.Machine
end

