-- ==== Sys2Proof/Machine/Tables.lean ====
section
/-! DEFINITION. The constant arrays, the GF(2^8) arithmetic, the byte and word helpers and the
T-tables (spec/41_tables.md). -/

namespace Sys2Proof.Machine

/-! ## GF(2^8), reduction polynomial 0x11B -/

/-- Multiplication by `x` (spec/41_tables.md R131). -/
def xtime (a : Byte) : Byte := (a <<< 1) ^^^ (if a.getLsbD 7 then 0x1b#8 else 0x00#8)

/-- `xtime` applied `k` times (spec/41_tables.md R131). -/
def xtimePow : Nat → Byte → Byte
  | 0, a => a
  | k + 1, a => xtime (xtimePow k a)

/-- The sum of `xtime^j(a)` over the set bits `j < k` of `b`. -/
def gmulUpTo : Nat → Byte → Byte → Byte
  | 0, _, _ => 0
  | k + 1, a, b => gmulUpTo k a b ^^^ (if b.getLsbD k then xtimePow k a else 0x00#8)

/-- Multiplication (spec/41_tables.md R131). -/
def gmul (a b : Byte) : Byte := gmulUpTo 8 a b

/-- Powers: `gpow a n` is `a` multiplied by itself `n` times. -/
def gpow (a : Byte) : Nat → Byte
  | 0 => 1
  | n + 1 => gmul (gpow a n) a

/-- The multiplicative inverse, 0 for 0 (spec/41_tables.md R132): `a^254`, computed by squaring. -/
def ginv (a : Byte) : Byte :=
  let a2 := gmul a a
  let a4 := gmul a2 a2
  let a8 := gmul a4 a4
  let a16 := gmul a8 a8
  let a32 := gmul a16 a16
  let a64 := gmul a32 a32
  let a128 := gmul a64 a64
  gmul (gmul (gmul (gmul (gmul (gmul a128 a64) a32) a16) a8) a4) a2

/-! ## The S-box and its inverse -/

/-- The affine transform of spec/41_tables.md R133. -/
def sboxAffine (b : Byte) : Byte :=
  b ^^^ b.rotateLeft 1 ^^^ b.rotateLeft 2 ^^^ b.rotateLeft 3 ^^^ b.rotateLeft 4 ^^^ 0x63#8

/-- The values of SBOX, row = high nibble, column = low nibble (spec/41_tables.md R133). -/
def sboxRows : List (List Byte) :=
  [[0x63, 0x7c, 0x77, 0x7b, 0xf2, 0x6b, 0x6f, 0xc5,
    0x30, 0x01, 0x67, 0x2b, 0xfe, 0xd7, 0xab, 0x76]] ++
  [[0xca, 0x82, 0xc9, 0x7d, 0xfa, 0x59, 0x47, 0xf0,
    0xad, 0xd4, 0xa2, 0xaf, 0x9c, 0xa4, 0x72, 0xc0]] ++
  [[0xb7, 0xfd, 0x93, 0x26, 0x36, 0x3f, 0xf7, 0xcc,
    0x34, 0xa5, 0xe5, 0xf1, 0x71, 0xd8, 0x31, 0x15]] ++
  [[0x04, 0xc7, 0x23, 0xc3, 0x18, 0x96, 0x05, 0x9a,
    0x07, 0x12, 0x80, 0xe2, 0xeb, 0x27, 0xb2, 0x75]] ++
  [[0x09, 0x83, 0x2c, 0x1a, 0x1b, 0x6e, 0x5a, 0xa0,
    0x52, 0x3b, 0xd6, 0xb3, 0x29, 0xe3, 0x2f, 0x84]] ++
  [[0x53, 0xd1, 0x00, 0xed, 0x20, 0xfc, 0xb1, 0x5b,
    0x6a, 0xcb, 0xbe, 0x39, 0x4a, 0x4c, 0x58, 0xcf]] ++
  [[0xd0, 0xef, 0xaa, 0xfb, 0x43, 0x4d, 0x33, 0x85,
    0x45, 0xf9, 0x02, 0x7f, 0x50, 0x3c, 0x9f, 0xa8]] ++
  [[0x51, 0xa3, 0x40, 0x8f, 0x92, 0x9d, 0x38, 0xf5,
    0xbc, 0xb6, 0xda, 0x21, 0x10, 0xff, 0xf3, 0xd2]] ++
  [[0xcd, 0x0c, 0x13, 0xec, 0x5f, 0x97, 0x44, 0x17,
    0xc4, 0xa7, 0x7e, 0x3d, 0x64, 0x5d, 0x19, 0x73]] ++
  [[0x60, 0x81, 0x4f, 0xdc, 0x22, 0x2a, 0x90, 0x88,
    0x46, 0xee, 0xb8, 0x14, 0xde, 0x5e, 0x0b, 0xdb]] ++
  [[0xe0, 0x32, 0x3a, 0x0a, 0x49, 0x06, 0x24, 0x5c,
    0xc2, 0xd3, 0xac, 0x62, 0x91, 0x95, 0xe4, 0x79]] ++
  [[0xe7, 0xc8, 0x37, 0x6d, 0x8d, 0xd5, 0x4e, 0xa9,
    0x6c, 0x56, 0xf4, 0xea, 0x65, 0x7a, 0xae, 0x08]] ++
  [[0xba, 0x78, 0x25, 0x2e, 0x1c, 0xa6, 0xb4, 0xc6,
    0xe8, 0xdd, 0x74, 0x1f, 0x4b, 0xbd, 0x8b, 0x8a]] ++
  [[0x70, 0x3e, 0xb5, 0x66, 0x48, 0x03, 0xf6, 0x0e,
    0x61, 0x35, 0x57, 0xb9, 0x86, 0xc1, 0x1d, 0x9e]] ++
  [[0xe1, 0xf8, 0x98, 0x11, 0x69, 0xd9, 0x8e, 0x94,
    0x9b, 0x1e, 0x87, 0xe9, 0xce, 0x55, 0x28, 0xdf]] ++
  [[0x8c, 0xa1, 0x89, 0x0d, 0xbf, 0xe6, 0x42, 0x68,
    0x41, 0x99, 0x2d, 0x0f, 0xb0, 0x54, 0xbb, 0x16]]

/-- The values of INVSBOX, laid out the same way (spec/41_tables.md R134). -/
def invSboxRows : List (List Byte) :=
  [[0x52, 0x09, 0x6a, 0xd5, 0x30, 0x36, 0xa5, 0x38,
    0xbf, 0x40, 0xa3, 0x9e, 0x81, 0xf3, 0xd7, 0xfb]] ++
  [[0x7c, 0xe3, 0x39, 0x82, 0x9b, 0x2f, 0xff, 0x87,
    0x34, 0x8e, 0x43, 0x44, 0xc4, 0xde, 0xe9, 0xcb]] ++
  [[0x54, 0x7b, 0x94, 0x32, 0xa6, 0xc2, 0x23, 0x3d,
    0xee, 0x4c, 0x95, 0x0b, 0x42, 0xfa, 0xc3, 0x4e]] ++
  [[0x08, 0x2e, 0xa1, 0x66, 0x28, 0xd9, 0x24, 0xb2,
    0x76, 0x5b, 0xa2, 0x49, 0x6d, 0x8b, 0xd1, 0x25]] ++
  [[0x72, 0xf8, 0xf6, 0x64, 0x86, 0x68, 0x98, 0x16,
    0xd4, 0xa4, 0x5c, 0xcc, 0x5d, 0x65, 0xb6, 0x92]] ++
  [[0x6c, 0x70, 0x48, 0x50, 0xfd, 0xed, 0xb9, 0xda,
    0x5e, 0x15, 0x46, 0x57, 0xa7, 0x8d, 0x9d, 0x84]] ++
  [[0x90, 0xd8, 0xab, 0x00, 0x8c, 0xbc, 0xd3, 0x0a,
    0xf7, 0xe4, 0x58, 0x05, 0xb8, 0xb3, 0x45, 0x06]] ++
  [[0xd0, 0x2c, 0x1e, 0x8f, 0xca, 0x3f, 0x0f, 0x02,
    0xc1, 0xaf, 0xbd, 0x03, 0x01, 0x13, 0x8a, 0x6b]] ++
  [[0x3a, 0x91, 0x11, 0x41, 0x4f, 0x67, 0xdc, 0xea,
    0x97, 0xf2, 0xcf, 0xce, 0xf0, 0xb4, 0xe6, 0x73]] ++
  [[0x96, 0xac, 0x74, 0x22, 0xe7, 0xad, 0x35, 0x85,
    0xe2, 0xf9, 0x37, 0xe8, 0x1c, 0x75, 0xdf, 0x6e]] ++
  [[0x47, 0xf1, 0x1a, 0x71, 0x1d, 0x29, 0xc5, 0x89,
    0x6f, 0xb7, 0x62, 0x0e, 0xaa, 0x18, 0xbe, 0x1b]] ++
  [[0xfc, 0x56, 0x3e, 0x4b, 0xc6, 0xd2, 0x79, 0x20,
    0x9a, 0xdb, 0xc0, 0xfe, 0x78, 0xcd, 0x5a, 0xf4]] ++
  [[0x1f, 0xdd, 0xa8, 0x33, 0x88, 0x07, 0xc7, 0x31,
    0xb1, 0x12, 0x10, 0x59, 0x27, 0x80, 0xec, 0x5f]] ++
  [[0x60, 0x51, 0x7f, 0xa9, 0x19, 0xb5, 0x4a, 0x0d,
    0x2d, 0xe5, 0x7a, 0x9f, 0x93, 0xc9, 0x9c, 0xef]] ++
  [[0xa0, 0xe0, 0x3b, 0x4d, 0xae, 0x2a, 0xf5, 0xb0,
    0xc8, 0xeb, 0xbb, 0x3c, 0x83, 0x53, 0x99, 0x61]] ++
  [[0x17, 0x2b, 0x04, 0x7e, 0xba, 0x77, 0xd6, 0x26,
    0xe1, 0x69, 0x14, 0x63, 0x55, 0x21, 0x0c, 0x7d]]

/-- The entry at `x` of a table of sixteen rows of sixteen bytes. -/
def lookup (rows : List (List Byte)) (x : Byte) : Byte :=
  (rows.getD (x.toNat / 16) []).getD (x.toNat % 16) 0

/-- `SBOX[x]` (spec/41_tables.md R130, R133). -/
def sbox (x : Byte) : Byte := lookup sboxRows x

/-- `INVSBOX[x]` (spec/41_tables.md R130, R134). -/
def invSbox (x : Byte) : Byte := lookup invSboxRows x

/-! ## The round constants -/

/-- The values of RCON (spec/41_tables.md R135). -/
def rconTable : List Byte :=
  [0x00, 0x01, 0x02, 0x04, 0x08, 0x10, 0x20, 0x40, 0x80, 0x1b, 0x36, 0x6c, 0xd8, 0xab, 0x4d] ++
  [0x9a, 0x2f, 0x5e, 0xbc, 0x63, 0xc6, 0x97, 0x35, 0x6a, 0xd4, 0xb3, 0x7d, 0xfa, 0xef, 0xc5]

/-- `RCON[k]`. Key expansion reads `k` in 1..10 only (spec/41_tables.md R136). -/
def rcon (k : Nat) : Byte := rconTable.getD k 0

/-- The round constant as a schedule word, in the most significant byte (spec/41_tables.md R137). -/
def rconWord (k : Nat) : Word := pack (rcon k) 0 0 0

/-! ## Byte and word helpers -/

/-- A left byte rotation by one position (spec/41_tables.md R138). -/
def rotWord (w : Word) : Word := rotl32 w 8

/-- `SBOX` on each of the four bytes (spec/41_tables.md R139). -/
def subWord (w : Word) : Word :=
  pack (sbox (byteAt 0 w)) (sbox (byteAt 1 w)) (sbox (byteAt 2 w)) (sbox (byteAt 3 w))

/-! ## T-tables, the optional realisation of a round -/

/-- `T0[x]` (spec/41_tables.md R140). -/
def t0 (x : Byte) : Word := pack (gmul 0x02 (sbox x)) (sbox x) (sbox x) (gmul 0x03 (sbox x))

/-- `T1[x]` (spec/41_tables.md R140). -/
def t1 (x : Byte) : Word := rotl32 (t0 x) 24

/-- `T2[x]` (spec/41_tables.md R140). -/
def t2 (x : Byte) : Word := rotl32 (t0 x) 16

/-- `T3[x]` (spec/41_tables.md R140). -/
def t3 (x : Byte) : Word := rotl32 (t0 x) 8

/-- `InvT0[x]` (spec/41_tables.md R141). -/
def invT0 (x : Byte) : Word :=
  pack (gmul 0x0e (invSbox x)) (gmul 0x09 (invSbox x)) (gmul 0x0d (invSbox x))
    (gmul 0x0b (invSbox x))

/-- `InvT1[x]` (spec/41_tables.md R141). -/
def invT1 (x : Byte) : Word := rotl32 (invT0 x) 24

/-- `InvT2[x]` (spec/41_tables.md R141). -/
def invT2 (x : Byte) : Word := rotl32 (invT0 x) 16

/-- `InvT3[x]` (spec/41_tables.md R141). -/
def invT3 (x : Byte) : Word := rotl32 (invT0 x) 8

/-- The key transform of the T-table inverse round (spec/41_tables.md R142). -/
def invMixColumnWord (w : Word) : Word :=
  invT0 (sbox (byteAt 0 w)) ^^^ invT1 (sbox (byteAt 1 w)) ^^^ invT2 (sbox (byteAt 2 w)) ^^^
    invT3 (sbox (byteAt 3 w))

end Sys2Proof.Machine
end

