-- ==== Sys2Proof/Machine/ForwardRound.lean ====
section
/-! DEFINITION. Family: the forward-round transform pipeline and ENCRYPT
(spec/43_forward_round.md). -/

namespace Sys2Proof.Machine

/-! ## The transforms -/

/-- SubBytes (spec/43_forward_round.md R181). -/
def subBytes (b : Block) : Block := ofColumns fun c => subWord (column b c)

/-- ShiftRows: row `r` rotates left by `r` positions (spec/43_forward_round.md R182). -/
def shiftRows (b : Block) : Block :=
  ofColumns fun c => pack (cell b 0 c) (cell b 1 (c + 1)) (cell b 2 (c + 2)) (cell b 3 (c + 3))

/-- MixColumns on one column (spec/43_forward_round.md R183). -/
def mixColumn (w : Word) : Word :=
  let a0 := byteAt 0 w
  let a1 := byteAt 1 w
  let a2 := byteAt 2 w
  let a3 := byteAt 3 w
  pack (gmul 2 a0 ^^^ gmul 3 a1 ^^^ a2 ^^^ a3)
    (a0 ^^^ gmul 2 a1 ^^^ gmul 3 a2 ^^^ a3)
    (a0 ^^^ a1 ^^^ gmul 2 a2 ^^^ gmul 3 a3)
    (gmul 3 a0 ^^^ a1 ^^^ a2 ^^^ gmul 2 a3)

/-- MixColumns (spec/43_forward_round.md R183). -/
def mixColumns (b : Block) : Block := ofColumns fun c => mixColumn (column b c)

/-! ## Rounds -/

/-- A full round with round key `r` (spec/43_forward_round.md R185). -/
def fullRound (w : Vector Word 60) (r : Nat) (b : Block) : Block :=
  addRoundKey w (mixColumns (shiftRows (subBytes b))) r

/-- The final round with round key `r` (spec/43_forward_round.md R186). -/
def finalRound (w : Vector Word 60) (r : Nat) (b : Block) : Block :=
  addRoundKey w (shiftRows (subBytes b)) r

/-- Acceptance of ENCRYPT: the initial AddRoundKey (spec/43_forward_round.md R180). -/
def acceptEncrypt (s : State) : State :=
  accept .enc { s with st := addRoundKey s.w s.din 0, rnd := 1#4 }

/-- ENCRYPT: BUSY, then NO_KEY, then acceptance (spec/40_host_interface.md R106,
spec/43_forward_round.md R180). -/
def execEncrypt (keylen : BitVec 6) (s : State) : Result :=
  unlessBusy (storeCtrl 2#3 keylen s) fun s1 =>
    unlessNoKey s1 fun s2 => .next (acceptEncrypt s2)

/-- The range of `rnd` during ENC, `1 <= rnd <= Nr` (spec/10_state.md R36). -/
def encInRange (s : State) : Bool :=
  contextOk s && 1 ≤ s.rnd.toNat && s.rnd.toNat ≤ s.nr.toNat

/-- One ENC micro-step (spec/43_forward_round.md R185), the last one at `rnd = Nr` (R186). The
range is asserted (log 6); the last step leaves `rnd` as it is (log 7). -/
def encStep (s : State) : Result :=
  if encInRange s then
    if s.rnd.toNat < s.nr.toNat then
      .next { s with st := fullRound s.w s.rnd.toNat s.st, rnd := s.rnd + 1#4 }
    else .next (deliver (finalRound s.w s.nr.toNat s.st) s)
  else .fault (.counterOutOfRange .enc)

/-! ## Closed form and the T-table realisation -/

/-- Full rounds 1 to `n`. -/
def fullRounds (w : Vector Word 60) : Nat → Block → Block
  | 0, b => b
  | n + 1, b => fullRound w (n + 1) (fullRounds w n b)

/-- `Encrypt(W, Nr, P)` (spec/43_forward_round.md R188). -/
def encryptBlock (w : Vector Word 60) (nr : Nat) (p : Block) : Block :=
  finalRound w nr (fullRounds w (nr - 1) (addRoundKey w p 0))

/-- A full round computed with the T-tables (spec/43_forward_round.md R187). -/
def tableFullRound (w : Vector Word 60) (r : Nat) (b : Block) : Block :=
  ofColumns fun c =>
    t0 (cell b 0 c) ^^^ t1 (cell b 1 (c + 1)) ^^^ t2 (cell b 2 (c + 2)) ^^^
      t3 (cell b 3 (c + 3)) ^^^ w.getD (4 * r + c.val) 0

/-- The final round by direct SBOX lookups (spec/43_forward_round.md R187). -/
def tableFinalRound (w : Vector Word 60) (r : Nat) (b : Block) : Block :=
  ofColumns fun c =>
    pack (sbox (cell b 0 c)) (sbox (cell b 1 (c + 1))) (sbox (cell b 2 (c + 2)))
      (sbox (cell b 3 (c + 3))) ^^^ w.getD (4 * r + c.val) 0

end Sys2Proof.Machine
end

