-- ==== Sys2Proof/Machine/HostAccess.lean ====
section
/-! DEFINITION. Family: register reads and writes to registers other than CTRL
(spec/40_host_interface.md R101, R102). -/

namespace Sys2Proof.Machine

/-- READ_REG: the response, and no state change (spec/40_host_interface.md R101). -/
def execReadReg (idx : BitVec 5) (s : State) : Result := .next (respond (regRead s idx) s)

/-- WRITE_KEY (spec/40_host_interface.md R102, spec/10_state.md R28). -/
def execWriteKey (idx : BitVec 5) (data : Word) (s : State) : Result :=
  .next (regWrite idx data s)

/-- WRITE_DIN (spec/40_host_interface.md R102, spec/10_state.md R30). -/
def execWriteDin (idx : BitVec 5) (data : Word) (s : State) : Result :=
  .next (regWrite idx data s)

/-- WRITE_STATUS: ignored (spec/40_host_interface.md R102, spec/10_state.md R25). -/
def execWriteStatus (s : State) : Result := .next (ignoreWrite s)

/-- WRITE_DOUT: ignored (spec/40_host_interface.md R102, spec/10_state.md R29). -/
def execWriteDout (_idx : BitVec 5) (s : State) : Result := .next (ignoreWrite s)

/-- WRITE_RSVD, IDX 2..3: ignored (spec/40_host_interface.md R102, spec/10_state.md R29). -/
def execWriteRsvd2to3 (_idx : BitVec 5) (s : State) : Result := .next (ignoreWrite s)

/-- WRITE_RSVD, IDX 4..7: ignored (spec/40_host_interface.md R102, spec/10_state.md R29). -/
def execWriteRsvd4to7 (_idx : BitVec 5) (s : State) : Result := .next (ignoreWrite s)

/-- WRITE_RSVD, IDX 24..31: ignored (spec/40_host_interface.md R102, spec/10_state.md R29). -/
def execWriteRsvd24to31 (_idx : BitVec 5) (s : State) : Result := .next (ignoreWrite s)

end Sys2Proof.Machine
end

