-- ==== Sys2Proof/Machine/InverseRound.lean ====
section
/-! DEFINITION. Family: the inverse-round transform pipeline and DECRYPT
(spec/44_inverse_round.md). -/

namespace Sys2Proof.Machine

/-! ## The inverse transforms -/

/-- `INVSBOX` on each of the four bytes of a word. -/
def invSubWord (w : Word) : Word :=
  pack (invSbox (byteAt 0 w)) (invSbox (byteAt 1 w)) (invSbox (byteAt 2 w)) (invSbox (byteAt 3 w))

/-- InvSubBytes (spec/44_inverse_round.md R201). -/
def invSubBytes (b : Block) : Block := ofColumns fun c => invSubWord (column b c)

/-- InvShiftRows: row `r` rotates right by `r` positions (spec/44_inverse_round.md R202). -/
def invShiftRows (b : Block) : Block :=
  ofColumns fun c => pack (cell b 0 c) (cell b 1 (c + 3)) (cell b 2 (c + 2)) (cell b 3 (c + 1))

/-- InvMixColumns on one column (spec/44_inverse_round.md R203). -/
def invMixColumn (w : Word) : Word :=
  let a0 := byteAt 0 w
  let a1 := byteAt 1 w
  let a2 := byteAt 2 w
  let a3 := byteAt 3 w
  pack (gmul 0x0e a0 ^^^ gmul 0x0b a1 ^^^ gmul 0x0d a2 ^^^ gmul 0x09 a3)
    (gmul 0x09 a0 ^^^ gmul 0x0e a1 ^^^ gmul 0x0b a2 ^^^ gmul 0x0d a3)
    (gmul 0x0d a0 ^^^ gmul 0x09 a1 ^^^ gmul 0x0e a2 ^^^ gmul 0x0b a3)
    (gmul 0x0b a0 ^^^ gmul 0x0d a1 ^^^ gmul 0x09 a2 ^^^ gmul 0x0e a3)

/-- InvMixColumns (spec/44_inverse_round.md R203). -/
def invMixColumns (b : Block) : Block := ofColumns fun c => invMixColumn (column b c)

/-! ## Rounds -/

/-- A full inverse round with round key `r` (spec/44_inverse_round.md R205). -/
def invFullRound (w : Vector Word 60) (r : Nat) (b : Block) : Block :=
  invMixColumns (addRoundKey w (invSubBytes (invShiftRows b)) r)

/-- The final inverse round, with round key 0 (spec/44_inverse_round.md R206). -/
def invFinalRound (w : Vector Word 60) (b : Block) : Block :=
  addRoundKey w (invSubBytes (invShiftRows b)) 0

/-- Acceptance of DECRYPT: round key Nr first (spec/44_inverse_round.md R200). -/
def acceptDecrypt (s : State) : State :=
  accept .dec { s with st := addRoundKey s.w s.din s.nr.toNat, rnd := s.nr - 1#4 }

/-- DECRYPT: BUSY, then NO_KEY, then acceptance (spec/40_host_interface.md R106,
spec/44_inverse_round.md R200). That KEY_VALID = 1 comes with a key context is asserted (log 6). -/
def execDecrypt (keylen : BitVec 6) (s : State) : Result :=
  unlessBusy (storeCtrl 3#3 keylen s) fun s1 =>
    unlessNoKey s1 fun s2 =>
      if contextOk s2 then .next (acceptDecrypt s2) else .fault .noKeyContext

/-- The range of `rnd` during DEC, `0 <= rnd <= Nr-1` (spec/10_state.md R36). -/
def decInRange (s : State) : Bool := contextOk s && s.rnd.toNat < s.nr.toNat

/-- One DEC micro-step (spec/44_inverse_round.md R205), the last one at `rnd = 0` (R206). The
range is asserted (log 6); the last step leaves `rnd` as it is (log 7). -/
def decStep (s : State) : Result :=
  if decInRange s then
    if 1 ≤ s.rnd.toNat then
      .next { s with st := invFullRound s.w s.rnd.toNat s.st, rnd := s.rnd - 1#4 }
    else .next (deliver (invFinalRound s.w s.st) s)
  else .fault (.counterOutOfRange .dec)

/-! ## Closed form and the T-table realisation -/

/-- Full inverse rounds `n` down to 1. -/
def invFullRounds (w : Vector Word 60) : Nat → Block → Block
  | 0, b => b
  | n + 1, b => invFullRounds w n (invFullRound w (n + 1) b)

/-- `Decrypt(W, Nr, C)` (spec/44_inverse_round.md R208). -/
def decryptBlock (w : Vector Word 60) (nr : Nat) (c : Block) : Block :=
  invFinalRound w (invFullRounds w (nr - 1) (addRoundKey w c nr))

/-- A full inverse round computed with the InvT-tables; the round key passes through
`invMixColumnWord` as it is read (spec/44_inverse_round.md R207, spec/90_conflicts.md C3). -/
def tableInvFullRound (w : Vector Word 60) (r : Nat) (b : Block) : Block :=
  ofColumns fun c =>
    invT0 (cell b 0 c) ^^^ invT1 (cell b 1 (c + 3)) ^^^ invT2 (cell b 2 (c + 2)) ^^^
      invT3 (cell b 3 (c + 1)) ^^^ invMixColumnWord (w.getD (4 * r + c.val) 0)

/-- The final inverse round by direct INVSBOX lookups (spec/44_inverse_round.md R207). -/
def tableInvFinalRound (w : Vector Word 60) (b : Block) : Block :=
  ofColumns fun c =>
    pack (invSbox (cell b 0 c)) (invSbox (cell b 1 (c + 3))) (invSbox (cell b 2 (c + 2)))
      (invSbox (cell b 3 (c + 1))) ^^^ w.getD c.val 0

end Sys2Proof.Machine
end

