-- ==== Sys2Proof/Machine/KeySchedule.lean ====
section
/-! DEFINITION. Family: the key scheduler, LOAD_KEY, its EXPAND micro-step, and CLEAR_KEY
(spec/42_key_schedule.md). -/

namespace Sys2Proof.Machine

/-! ## LOAD_KEY -/

/-- `W[j] <- KEY[j]` for `j < n`; the other words stay (spec/42_key_schedule.md R160, R165). -/
def copyKey (n : Nat) (key : Vector Word 8) (w : Vector Word 60) : Vector Word 60 :=
  Vector.ofFn fun j => if j.val < n then key.getD j.val 0 else w.getD j.val 0

/-- Acceptance of LOAD_KEY (spec/42_key_schedule.md R160). -/
def acceptLoadKey (keylen : BitVec 6) (s : State) : State :=
  let n := keyWords keylen
  accept .expand
    { s with
      nk := BitVec.ofNat 4 n
      nr := BitVec.ofNat 4 (n + 6)
      w := copyKey n s.key s.w
      i := BitVec.ofNat 6 n
      keyValid := false }

/-- LOAD_KEY: BUSY, then INVALID_KEY_SIZE, then acceptance (spec/40_host_interface.md R106,
spec/42_key_schedule.md R160, R161). -/
def execLoadKey (keylen : BitVec 6) (s : State) : Result :=
  unlessBusy (storeCtrl 1#3 keylen s) fun s1 =>
    if keylenAccepted keylen then .next (acceptLoadKey keylen s1)
    else .next (raise .invalidKeySize s1)

/-! ## The EXPAND micro-step -/

/-- The `temp` of one schedule step, from `W[i-1]` (spec/42_key_schedule.md R162, R164). -/
def expandTemp (nk i : Nat) (prev : Word) : Word :=
  if i % nk = 0 then subWord (rotWord prev) ^^^ rconWord (i / nk)
  else if 6 < nk ∧ i % nk = 4 then subWord prev
  else prev

/-- The new `W[i]` (spec/42_key_schedule.md R162). -/
def expandWord (w : Vector Word 60) (nk i : Nat) : Word :=
  w.getD (i - nk) 0 ^^^ expandTemp nk i (w.getD (i - 1) 0)

/-- The schedule with `W[i]` computed (spec/42_key_schedule.md R162). -/
def expandAt (w : Vector Word 60) (nk i : Nat) : Vector Word 60 :=
  w.setIfInBounds i (expandWord w nk i)

/-- The range of `i` during EXPAND, `Nk <= i <= 4(Nr+1)-1` (spec/10_state.md R36). -/
def expandInRange (s : State) : Bool :=
  contextOk s && s.nk.toNat ≤ s.i.toNat && s.i.toNat < 4 * (s.nr.toNat + 1)

/-- One EXPAND micro-step (spec/42_key_schedule.md R162), the last one at `i = 4(Nr+1)-1` (R163).
The range is asserted (log 6); the last step leaves `i` as it is (log 7). -/
def expandStep (s : State) : Result :=
  if expandInRange s then
    let w := expandAt s.w s.nk.toNat s.i.toNat
    if s.i.toNat + 1 < 4 * (s.nr.toNat + 1) then .next { s with w := w, i := s.i + 1#6 }
    else .next { s with w := w, keyValid := true, done := true, phase := .idle }
  else .fault (.counterOutOfRange .expand)

/-! ## CLEAR_KEY -/

/-- Acceptance of CLEAR_KEY (spec/42_key_schedule.md R166). -/
def acceptClearKey (s : State) : State :=
  { s with
    w := Vector.replicate 60 0
    key := Vector.replicate 8 0
    keyValid := false
    done := true
    err := ErrCode.none.code }

/-- CLEAR_KEY: BUSY, then acceptance (spec/40_host_interface.md R106, spec/42_key_schedule.md
R166). -/
def execClearKey (keylen : BitVec 6) (s : State) : Result :=
  unlessBusy (storeCtrl 4#3 keylen s) fun s1 => .next (acceptClearKey s1)

/-! ## Closed form -/

/-- `n` schedule steps from index `i` on. -/
def expandFrom (w : Vector Word 60) (nk i : Nat) : Nat → Vector Word 60
  | 0 => w
  | n + 1 => expandFrom (expandAt w nk i) nk (i + 1) n

/-- `ExpandKey(K)` for a key of `nk` words: its words `0 .. 4(nk+7)-1` are the schedule
(spec/42_key_schedule.md R168). -/
def expandKey (nk : Nat) (key : Vector Word 8) : Vector Word 60 :=
  expandFrom (copyKey nk key (Vector.replicate 60 0)) nk nk (4 * (nk + 7) - nk)

end Sys2Proof.Machine
end

