-- ==== Sys2Proof/Machine/Dispatch.lean ====
section
/-! DEFINITION. One arm per instruction: which meaning runs. -/

namespace Sys2Proof.Machine

def exec (i : Instr) (s : State) : Host.Outcome State Fault Refusal :=
  match i with
  | .readReg idx => Sys2Proof.Machine.execReadReg idx s
  | .nop keylen => Sys2Proof.Machine.execNop keylen s
  | .loadKey keylen => Sys2Proof.Machine.execLoadKey keylen s
  | .encrypt keylen => Sys2Proof.Machine.execEncrypt keylen s
  | .decrypt keylen => Sys2Proof.Machine.execDecrypt keylen s
  | .clearKey keylen => Sys2Proof.Machine.execClearKey keylen s
  | .illegalCmd5 keylen => Sys2Proof.Machine.execIllegalCmd5 keylen s
  | .illegalCmd6or7 cmd keylen => Sys2Proof.Machine.execIllegalCmd6or7 cmd keylen s
  | .writeStatus => Sys2Proof.Machine.execWriteStatus s
  | .writeRsvd2to3 idx => Sys2Proof.Machine.execWriteRsvd2to3 idx s
  | .writeRsvd4to7 idx => Sys2Proof.Machine.execWriteRsvd4to7 idx s
  | .writeKey idx data => Sys2Proof.Machine.execWriteKey idx data s
  | .writeDin idx data => Sys2Proof.Machine.execWriteDin idx data s
  | .writeDout idx => Sys2Proof.Machine.execWriteDout idx s
  | .writeRsvd24to31 idx => Sys2Proof.Machine.execWriteRsvd24to31 idx s

end Sys2Proof.Machine
end

