-- ==== Sys2Proof/Machine/Sequencer.lean ====
section
/-! DEFINITION. The core agent's step and the host's next transaction
(spec/00_scope.md R15, spec/10_state.md R24). -/

namespace Sys2Proof.Machine

/-- A turn of the core: one micro-step of the operation in flight. With `phase = IDLE` the core
has no step and the block waits (spec/00_scope.md R15, spec/70_reset_and_hazards.md R272; log 9). -/
def coreStep (s : State) : Result :=
  match s.phase with
  | .idle => .next s
  | .expand => expandStep s
  | .enc => encStep s
  | .dec => decStep s

/-- The state with a host transaction ready to be performed next (log 3). -/
def presentTransaction (s : State) (ht : HtWord) : State :=
  { s with events := .host ht :: s.events }

end Sys2Proof.Machine
end

