-- ==== Sys2Proof/Machine/Step.lean ====
section
/-! DEFINITION. One step of the machine: the next event, or the core's own step when none is
pending (spec/00_scope.md R15; log 2). -/

namespace Sys2Proof.Machine

/-- The machine's step. A host event performs its transaction (spec/40_host_interface.md R100), a
core event one micro-step, a reset event the reset (spec/70_reset_and_hazards.md R270). With no
event pending the core goes on, and an idle block waits. -/
def step (s : State) : Host.Outcome State Fault Refusal :=
  match s.events with
  | [] => coreStep s
  | .host ht :: rest => exec (decodeHt ht) { s with events := rest }
  | .core :: rest => coreStep { s with events := rest }
  | .reset :: rest => .next (resetBlock { s with events := rest })

/-- `s` with the transaction of the table word `w` performed next (log 3). A number that is no
38-bit word leaves the state as it is (log 14). -/
def State.withFetchWord (s : State) (nbits w : Nat) : State :=
  if w % 2 ^ nbits < 2 ^ 38 then presentTransaction s (BitVec.ofNat 38 (w % 2 ^ nbits)) else s

end Sys2Proof.Machine
end

