-- ==== Sys2Proof/Machine/HostProgram.lean ====
section
/-! DEFINITION. The host program form of spec/30_encoding.md R87: `rd`, `wr` and the
pseudo-instructions, each as the HT words it stands for. Host-side control flow is the host's. -/

namespace Sys2Proof.Machine

/-- `rd r<n>`. -/
def htRead (idx : BitVec 5) : HtWord := mkHt 0#1 idx 0#32

/-- `wr r<n>, v`. -/
def htWrite (idx : BitVec 5) (v : Word) : HtWord := mkHt 1#1 idx v

/-- `nop`. -/
def htNop : HtWord := htWrite 0#5 0x00000000#32

/-- `loadkey n`: `(n << 8) | 1`. -/
def htLoadkey (n : Word) : HtWord := htWrite 0#5 ((n <<< 8) ||| 1#32)

/-- `encrypt`. -/
def htEncrypt : HtWord := htWrite 0#5 0x00000002#32

/-- `decrypt`. -/
def htDecrypt : HtWord := htWrite 0#5 0x00000003#32

/-- `clearkey`. -/
def htClearkey : HtWord := htWrite 0#5 0x00000004#32

/-- `setkey k0,..,k(m-1)`, from KEY`j` on. -/
def htSetkey : Nat → List Word → List HtWord
  | _, [] => []
  | j, k :: ks => htWrite (BitVec.ofNat 5 (8 + j)) k :: htSetkey (j + 1) ks

/-- `setin d0,d1,d2,d3`. -/
def htSetin (b : Block) : List HtWord :=
  [htWrite 16#5 b.c0, htWrite 17#5 b.c1, htWrite 18#5 b.c2, htWrite 19#5 b.c3]

/-- The transaction that `wait` repeats until BUSY = 0. -/
def htPoll : HtWord := htRead 1#5

/-- `getout`. -/
def htGetout : List HtWord := [htRead 20#5, htRead 21#5, htRead 22#5, htRead 23#5]

end Sys2Proof.Machine
end

