-- ==== Sys2Proof/Safety.lean ====
section
/-! DEFINITION. What a safe run is, and the invariant that makes every run from reset safe
(spec/10_state.md R26, R32 to R38). -/

namespace Sys2Proof.Machine

/-- `k` steps, stopping at the first fault or refusal. -/
def runSteps : Nat → State → Result
  | 0, s => .next s
  | k + 1, s =>
    match step s with
    | .next t => runSteps k t
    | .fault r => .fault r
    | .refused r => .refused r

/-- `t` is reached from `s` by some number of steps. -/
def Reaches (s t : State) : Prop := ∃ k, runSteps k s = .next t

/-- A safe run: no number of steps ends in a fault or a refusal. -/
def SafeRun (s : State) : Prop := ∀ k, ∃ t, runSteps k s = .next t

/-- The number of turns of the core among pending events. -/
def coreTurns (es : List Event) : Nat := es.count .core

/-- No reset is pending. -/
def NoReset (es : List Event) : Prop := Event.reset ∉ es

/-- The host transaction the next step performs, if the next step performs one. -/
def nextTransaction (s : State) : Option HtWord :=
  match s.events with
  | .host ht :: _ => some ht
  | _ => none

/-- The next step is a reset. -/
def nextIsReset (s : State) : Prop := ∃ rest, s.events = .reset :: rest

/-- The next step is the core's: its turn comes, or nothing is pending. -/
def nextIsCore (s : State) : Prop := s.events = [] ∨ ∃ rest, s.events = .core :: rest

/-- Micro-steps left of the operation in flight (spec/42_key_schedule.md R165,
spec/43_forward_round.md R189, spec/44_inverse_round.md R208, spec/70_reset_and_hazards.md R280). -/
def stepsLeft (s : State) : Nat :=
  match s.phase with
  | .idle => 0
  | .expand => 4 * (s.nr.toNat + 1) - s.i.toNat
  | .enc => s.nr.toNat + 1 - s.rnd.toNat
  | .dec => s.rnd.toNat + 1

/-- The states agree on everything but KEY, W and S, which no read returns
(spec/10_state.md R28, R32, R35, R40). -/
def SameButSecrets (s t : State) : Prop := { s with key := t.key, w := t.w, st := t.st } = t

/-- The next step is the last micro-step of an ENCRYPT or a DECRYPT (spec/43_forward_round.md R186,
spec/44_inverse_round.md R206). -/
def nextDelivers (s : State) : Prop :=
  nextIsCore s ∧ ((s.phase = .enc ∧ s.rnd.toNat = s.nr.toNat) ∨ (s.phase = .dec ∧ s.rnd.toNat = 0))

/-- The words `nk .. n-1` of `w` are schedule steps on the words before them
(spec/10_state.md R32, R38 item 4, spec/42_key_schedule.md R162, R168). -/
def ScheduleUpTo (w : Vector Word 60) (nk n : Nat) : Prop :=
  ∀ j, nk ≤ j → j < n → w.getD j 0 = expandWord w nk j

/-- The invariant of the block. -/
structure BlockInv (s : State) : Prop where
  /-- ERR holds a code that a rule produces (spec/10_state.md R26). -/
  errProduced : s.err = 0#3 ∨ s.err = 1#3 ∨ s.err = 3#3 ∨ s.err = 4#3 ∨ s.err = 5#3
  /-- DONE is 0 while an operation runs (spec/10_state.md R25). -/
  busyNotDone : s.phase ≠ .idle → s.done = false
  /-- EXPAND has no valid key and its counter in range (spec/10_state.md R36, R38 item 2), and the
  words below `i` are expanded. -/
  expanding : s.phase = .expand → s.keyValid = false ∧ expandInRange s = true ∧
    ScheduleUpTo s.w s.nk.toNat s.i.toNat
  /-- ENC has a valid key and its counter in range (spec/10_state.md R36, R38 item 3). -/
  encrypting : s.phase = .enc → s.keyValid = true ∧ encInRange s = true
  /-- DEC has a valid key and its counter in range (spec/10_state.md R36, R38 item 3). -/
  decrypting : s.phase = .dec → s.keyValid = true ∧ decInRange s = true
  /-- A valid key has Nk, Nr of a key size and a complete schedule (spec/10_state.md R38 item 4). -/
  keyContext : s.keyValid = true → contextOk s = true ∧
    ScheduleUpTo s.w s.nk.toNat (4 * (s.nr.toNat + 1))

end Sys2Proof.Machine
end

