-- ==== Sys2Proof/Certificates/Slice0/Obligations.lean ====
section
/-! DEFINITION. The statements about the block, each from the rule of spec/ its docstring names.
A hypothesis such as `expandInRange s` restates the range that a rule gives for reachable states;
`InvariantKeptByEveryStep` says that no run leaves it. -/

open Sys2Proof Sys2Proof.Machine

/-! ## Encoding -/

/-- Decoding an encoded well-formed instruction gives it back, with every operand at every value
its row admits (spec/30_encoding.md sections 1 to 4). That the encoder writes zeros in ignored bits
is the model's choice (log 13). -/
def Obligations.DecodeOfEncodeIsTheInstruction : Prop :=
  ∀ ins : Instr, ins.wellFormed = true → decode (encode ins).toNat = .ok ins

/-- R85: a word decodes to an instruction exactly when it matches that instruction's row, with
the operands at the row's bits, and exactly one row matches. -/
def Obligations.WordDecodesToTheOneRowItMatches : Prop :=
  ∀ x : HtWord,
    let idx := x.extractLsb' 32 5
    let data := x.extractLsb' 0 32
    let keylen := x.extractLsb' 8 6
    (x &&& 0x2000000000#38 = 0x0000000000#38 ↔ decodeHt x = .readReg idx) ∧
    (x &&& 0x3f00000007#38 = 0x2000000000#38 ↔ decodeHt x = .nop keylen) ∧
    (x &&& 0x3f00000007#38 = 0x2000000001#38 ↔ decodeHt x = .loadKey keylen) ∧
    (x &&& 0x3f00000007#38 = 0x2000000002#38 ↔ decodeHt x = .encrypt keylen) ∧
    (x &&& 0x3f00000007#38 = 0x2000000003#38 ↔ decodeHt x = .decrypt keylen) ∧
    (x &&& 0x3f00000007#38 = 0x2000000004#38 ↔ decodeHt x = .clearKey keylen) ∧
    (x &&& 0x3f00000007#38 = 0x2000000005#38 ↔ decodeHt x = .illegalCmd5 keylen) ∧
    (x &&& 0x3f00000006#38 = 0x2000000006#38 ↔
      decodeHt x = .illegalCmd6or7 (x.extractLsb' 0 3) keylen) ∧
    (x &&& 0x3f00000000#38 = 0x2100000000#38 ↔ decodeHt x = .writeStatus) ∧
    (x &&& 0x3e00000000#38 = 0x2200000000#38 ↔ decodeHt x = .writeRsvd2to3 idx) ∧
    (x &&& 0x3c00000000#38 = 0x2400000000#38 ↔ decodeHt x = .writeRsvd4to7 idx) ∧
    (x &&& 0x3800000000#38 = 0x2800000000#38 ↔ decodeHt x = .writeKey idx data) ∧
    (x &&& 0x3c00000000#38 = 0x3000000000#38 ↔ decodeHt x = .writeDin idx data) ∧
    (x &&& 0x3c00000000#38 = 0x3400000000#38 ↔ decodeHt x = .writeDout idx) ∧
    (x &&& 0x3800000000#38 = 0x3800000000#38 ↔ decodeHt x = .writeRsvd24to31 idx) ∧
    (opcodeRows.filter fun r => x &&& r.mask == r.pattern).length = 1

/-- R80, R81, R86: encoding what a word decodes to gives the word's used bits back and zeros in
the ignored ones: DATA of a read, DATA of a write to a read-only or reserved index, and bits 31:14
and 7:3 of a CTRL write. That the encoder writes zeros there is the model's choice (log 13). -/
def Obligations.OnlyUsedBitsReachTheInstruction : Prop :=
  ∀ x : HtWord,
    let n := (x.extractLsb' 32 5).toNat
    encode (decodeHt x) = x &&&
      (if x.getLsbD 37 = false then 0x3f00000000#38
       else if n = 0 then 0x3f00003f07#38
       else if 8 ≤ n ∧ n ≤ 19 then 0x3fffffffff#38
       else 0x3f00000000#38)

/-- Words written out in the programs of spec/95_test_vectors.md section 3 decode to the
instructions they stand for there. -/
def Obligations.ProgramWordsDecodeAsTheSpecSays : Prop :=
  decode 0x0100000000 = .ok (.readReg 1#5) ∧
  decode 0x2000000000 = .ok (.nop 0#6) ∧
  decode 0x2000001801 = .ok (.loadKey 24#6) ∧
  decode 0x2000000002 = .ok (.encrypt 0#6) ∧
  decode 0x2000000003 = .ok (.decrypt 0#6) ∧
  decode 0x2000000004 = .ok (.clearKey 0#6) ∧
  decode 0x2000000005 = .ok (.illegalCmd5 0#6) ∧
  decode 0x2000001807 = .ok (.illegalCmd6or7 7#3 24#6) ∧
  decode 0x21ffffffff = .ok .writeStatus ∧
  decode 0x2512345678 = .ok (.writeRsvd4to7 5#5) ∧
  decode 0x2f1c1d1e1f = .ok (.writeKey 15#5 0x1c1d1e1f#32) ∧
  decode 0x33ccddeeff = .ok (.writeDin 19#5 0xccddeeff#32) ∧
  decode 0x34deadbeef = .ok (.writeDout 20#5)

/-! ## Steps and reset -/

/-- R100: when the next event is a host transaction whose word decodes to `ins`, a step is `ins`
executed on the state without that event, and nothing else. That the transaction comes from the
list of pending events is the model's form (logs 2 and 3). -/
def Obligations.StepExecutesTheDecodedTransaction : Prop :=
  ∀ (s : State) (ht : HtWord) (rest : List Event) (ins : Instr),
    s.events = .host ht :: rest → decode ht.toNat = .ok ins →
    step s = exec ins { s with events := rest }

/-- R15: at the core's turn a busy block performs the micro-step of its phase and an idle block
waits; so it does when no event is pending. The event list and the idle turn are the model's form
(logs 2 and 9). -/
def Obligations.StepGivesTheCoreItsTurn : Prop :=
  ∀ (s : State) (rest : List Event), s.events = .core :: rest ∨ (s.events = [] ∧ rest = []) →
    let t := { s with events := rest }
    (s.phase = .idle → step s = .next t) ∧ (s.phase = .expand → step s = expandStep t) ∧
    (s.phase = .enc → step s = encStep t) ∧ (s.phase = .dec → step s = decStep t)

/-- R270, R271: a reset, whatever the block is doing, leaves the phase IDLE, KEY_VALID, DONE and
ERR zero, KEY zero, and every register reading zero. What the host still has to send and what it
has received stay (the model's choice, log 5). -/
def Obligations.ResetAbandonsAndClears : Prop :=
  ∀ (s : State) (rest : List Event), s.events = .reset :: rest →
    ∃ t, step s = .next t ∧ t.phase = .idle ∧ t.keyValid = false ∧ t.done = false ∧ t.err = 0 ∧
      t.ctrlCmd = 0 ∧ t.ctrlKeylen = 0 ∧ (∀ j, t.key.getD j 0 = 0) ∧
      (∀ c, column t.din c = 0 ∧ column t.dout c = 0) ∧ (∀ idx, regRead t idx = 0) ∧
      t.events = rest ∧ t.responses = s.responses

/-- R39: the values the spec states for reset. Nothing is said of Nk, Nr, W, i, rnd and S, which
have no value there (log 1). -/
def Obligations.ResetStateHoldsTheStatedValues : Prop :=
  State.reset.ctrlCmd = 0 ∧ State.reset.ctrlKeylen = 0 ∧
  (∀ j, State.reset.key.getD j 0 = 0) ∧ (∀ c, column State.reset.din c = 0) ∧
  (∀ c, column State.reset.dout c = 0) ∧ State.reset.phase = .idle ∧
  State.reset.keyValid = false ∧ State.reset.done = false ∧ State.reset.err = 0 ∧
  (∀ idx, regRead State.reset idx = 0)

/-! ## Register access -/

/-- R101: READ_REG of every index answers the register's value and changes nothing else. That
RDATA goes to the list of responses is the model's form (log 4). -/
def Obligations.ReadRegAnswersTheRegister : Prop :=
  ∀ (s : State) (idx : BitVec 5),
    ∃ rdata, exec (.readReg idx) s = .next { s with responses := s.responses ++ [rdata] } ∧
      (idx.toNat = 0 → rdata.toNat = s.ctrlKeylen.toNat * 2 ^ 8 + s.ctrlCmd.toNat) ∧
      (idx.toNat = 1 → rdata = statusWord s) ∧
      (2 ≤ idx.toNat → idx.toNat ≤ 15 → rdata = 0) ∧
      (∀ c : Fin 4, idx.toNat = 16 + c.val → rdata = column s.din c) ∧
      (∀ c : Fin 4, idx.toNat = 20 + c.val → rdata = column s.dout c) ∧
      (24 ≤ idx.toNat → rdata = 0)

/-- R25: the fields of STATUS at their bits, NR and KSLEN only while KEY_VALID = 1, and every
reserved bit zero. -/
def Obligations.StatusFieldsStandAtTheirBits : Prop :=
  ∀ s : State,
    let v := statusWord s
    v.getLsbD 0 = decide (s.phase ≠ .idle) ∧ v.getLsbD 1 = s.keyValid ∧ v.getLsbD 2 = s.done ∧
    v.extractLsb' 4 3 = s.err ∧
    (v.extractLsb' 8 4).toNat = (if s.keyValid then s.nr.toNat else 0) ∧
    (v.extractLsb' 16 6).toNat = (if s.keyValid then 4 * (s.nr.toNat + 1) % 2 ^ 6 else 0) ∧
    v.getLsbD 3 = false ∧ v.getLsbD 7 = false ∧ v.extractLsb' 12 4 = 0 ∧ v.extractLsb' 22 10 = 0

/-- R102, R28, R30: WRITE_KEY and WRITE_DIN set the one holding register of their index, whatever
the phase, and change nothing else. -/
def Obligations.HoldingRegisterWritesSetOneRegister : Prop :=
  ∀ (s : State) (idx : BitVec 5) (data : Word),
    (8 ≤ idx.toNat → idx.toNat ≤ 15 →
      ∃ t, exec (.writeKey idx data) s = .next t ∧ t = { s with key := t.key } ∧
        ∀ j, j < 8 → t.key.getD j 0 = if j + 8 = idx.toNat then data else s.key.getD j 0) ∧
    (16 ≤ idx.toNat → idx.toNat ≤ 19 →
      ∃ t, exec (.writeDin idx data) s = .next t ∧ t = { s with din := t.din } ∧
        ∀ c : Fin 4, column t.din c = if c.val + 16 = idx.toNat then data else column s.din c)

/-- R102, R29: writes to STATUS, to DOUT and to the reserved indices change nothing. -/
def Obligations.ReadOnlyAndReservedWritesChangeNothing : Prop :=
  ∀ (s : State) (idx : BitVec 5),
    exec .writeStatus s = .next s ∧ exec (.writeDout idx) s = .next s ∧
    exec (.writeRsvd2to3 idx) s = .next s ∧ exec (.writeRsvd4to7 idx) s = .next s ∧
    exec (.writeRsvd24to31 idx) s = .next s

/-- R102, over the words themselves: a write word to any index but CTRL's completes; it sets
KEY[IDX-8] for 8..15 and DIN[IDX-16] for 16..19, and touches nothing else whatever its DATA. -/
def Obligations.NonCtrlWriteWordSetsOnlyItsRegister : Prop :=
  ∀ (s : State) (x : HtWord),
    x.getLsbD 37 = true → x.extractLsb' 32 5 ≠ 0#5 →
    let n := (x.extractLsb' 32 5).toNat
    let data := x.extractLsb' 0 32
    ∃ t, exec (decodeHt x) s = .next t ∧ t = { s with key := t.key, din := t.din } ∧
      (∀ j, j < 8 → t.key.getD j 0 = if n = 8 + j then data else s.key.getD j 0) ∧
      (∀ c : Fin 4, column t.din c = if n = 16 + c.val then data else column s.din c)

/-- R28, R30, R61: byte `k` of a word written to KEY[j] or DIN[c] is byte `4j+k` of the key or
`4c+k` of the block, most significant byte first. -/
def Obligations.WrittenWordsAreBigEndian : Prop :=
  ∀ (s : State) (b0 b1 b2 b3 : Byte),
    (∀ j : Nat, j < 8 → ∃ t,
      exec (.writeKey (BitVec.ofNat 5 (8 + j)) (pack b0 b1 b2 b3)) s = .next t ∧
      keyByte t.key (Fin.ofNat 32 (4 * j)) = b0 ∧ keyByte t.key (Fin.ofNat 32 (4 * j + 1)) = b1 ∧
      keyByte t.key (Fin.ofNat 32 (4 * j + 2)) = b2 ∧
      keyByte t.key (Fin.ofNat 32 (4 * j + 3)) = b3) ∧
    (∀ c : Nat, c < 4 → ∃ t,
      exec (.writeDin (BitVec.ofNat 5 (16 + c)) (pack b0 b1 b2 b3)) s = .next t ∧
      blockByte t.din (Fin.ofNat 16 (4 * c)) = b0 ∧
      blockByte t.din (Fin.ofNat 16 (4 * c + 1)) = b1 ∧
      blockByte t.din (Fin.ofNat 16 (4 * c + 2)) = b2 ∧
      blockByte t.din (Fin.ofNat 16 (4 * c + 3)) = b3)

/-! ## Commands -/

/-- R107: NOP stores the CTRL fields and changes nothing else, whether BUSY is 0 or 1. -/
def Obligations.NopStoresOnlyTheCtrlFields : Prop :=
  ∀ (s : State) (keylen : BitVec 6),
    exec (.nop keylen) s = .next { s with ctrlCmd := 0#3, ctrlKeylen := keylen }

/-- R109: CMD 5, 6 and 7 store the CTRL fields and set ERR to 5, whether BUSY is 0 or 1, and
change nothing else. -/
def Obligations.IllegalCommandSetsErrFive : Prop :=
  ∀ (s : State) (cmd : BitVec 3) (keylen : BitVec 6),
    exec (.illegalCmd5 keylen) s =
      .next { s with ctrlCmd := 5#3, ctrlKeylen := keylen, err := 5#3 } ∧
    exec (.illegalCmd6or7 cmd keylen) s =
      .next { s with ctrlCmd := cmd, ctrlKeylen := keylen, err := 5#3 }

/-- R108: commands 1 to 4 while busy set ERR to 4 and change nothing else; ENCRYPT and DECRYPT
without a key set ERR to 3 and change nothing else; and no micro-step touches ERR. -/
def Obligations.BusyAndNoKeyRejectionsChangeOnlyErr : Prop :=
  ∀ (s : State) (keylen : BitVec 6),
    (s.phase ≠ .idle →
      exec (.loadKey keylen) s =
        .next { s with ctrlCmd := 1#3, ctrlKeylen := keylen, err := 4#3 } ∧
      exec (.encrypt keylen) s =
        .next { s with ctrlCmd := 2#3, ctrlKeylen := keylen, err := 4#3 } ∧
      exec (.decrypt keylen) s =
        .next { s with ctrlCmd := 3#3, ctrlKeylen := keylen, err := 4#3 } ∧
      exec (.clearKey keylen) s =
        .next { s with ctrlCmd := 4#3, ctrlKeylen := keylen, err := 4#3 }) ∧
    (s.phase = .idle → s.keyValid = false →
      exec (.encrypt keylen) s =
        .next { s with ctrlCmd := 2#3, ctrlKeylen := keylen, err := 3#3 } ∧
      exec (.decrypt keylen) s =
        .next { s with ctrlCmd := 3#3, ctrlKeylen := keylen, err := 3#3 }) ∧
    (∀ t, coreStep s = .next t → t.err = s.err)

/-- R161: LOAD_KEY while idle with KEYLEN not in {16, 24, 32} sets ERR to 1 and changes nothing
else. -/
def Obligations.InvalidKeySizeChangesOnlyErr : Prop :=
  ∀ (s : State) (keylen : BitVec 6),
    s.phase = .idle → keylen.toNat ≠ 16 → keylen.toNat ≠ 24 → keylen.toNat ≠ 32 →
    exec (.loadKey keylen) s = .next { s with ctrlCmd := 1#3, ctrlKeylen := keylen, err := 1#3 }

/-- R160: acceptance of LOAD_KEY: Nk, Nr, the copy of the key words, the counter and the flags;
every other element is unchanged. That the words `W[Nk..59]` keep what they held is the model's
reading (log 10). -/
def Obligations.LoadKeyAcceptanceCopiesTheKey : Prop :=
  ∀ (s : State) (keylen : BitVec 6),
    s.phase = .idle → (keylen.toNat = 16 ∨ keylen.toNat = 24 ∨ keylen.toNat = 32) →
    ∃ t, exec (.loadKey keylen) s = .next t ∧
      t.nk.toNat = keylen.toNat / 4 ∧ t.nr.toNat = keylen.toNat / 4 + 6 ∧
      t.i.toNat = keylen.toNat / 4 ∧
      (∀ j, j < 60 →
        t.w.getD j 0 = if j < keylen.toNat / 4 then s.key.getD j 0 else s.w.getD j 0) ∧
      t = { s with
        ctrlCmd := 1#3, ctrlKeylen := keylen, nk := t.nk, nr := t.nr, w := t.w, i := t.i,
        keyValid := false, done := false, err := 0#3, phase := .expand }

/-- R166: while idle, CLEAR_KEY zeroes W and KEY, clears KEY_VALID, sets DONE, and changes nothing
else but ERR and the CTRL fields, with a valid key or without one; while busy it reports BUSY. -/
def Obligations.ClearKeyZeroesTheKey : Prop :=
  ∀ (s : State) (keylen : BitVec 6),
    (s.phase = .idle →
      ∃ t, exec (.clearKey keylen) s = .next t ∧
        (∀ j, j < 60 → t.w.getD j 0 = 0) ∧ (∀ j, j < 8 → t.key.getD j 0 = 0) ∧
        t = { s with
          ctrlCmd := 4#3, ctrlKeylen := keylen, w := t.w, key := t.key,
          keyValid := false, done := true, err := 0#3 }) ∧
    (s.phase ≠ .idle →
      exec (.clearKey keylen) s = .next { s with ctrlCmd := 4#3, ctrlKeylen := keylen, err := 4#3 })

/-- R180: acceptance of ENCRYPT xors DIN with round key 0 into S and starts ENC at round 1;
every other element is unchanged. -/
def Obligations.EncryptAcceptanceAddsRoundKeyZero : Prop :=
  ∀ (s : State) (keylen : BitVec 6), s.phase = .idle → s.keyValid = true →
    ∃ t, exec (.encrypt keylen) s = .next t ∧
      (∀ c : Fin 4, column t.st c = column s.din c ^^^ s.w.getD c.val 0) ∧
      t = { s with
        ctrlCmd := 2#3, ctrlKeylen := keylen, st := t.st, rnd := 1#4,
        done := false, err := 0#3, phase := .enc }

/-- R200: acceptance of DECRYPT xors DIN with round key Nr into S and starts DEC at round Nr-1;
every other element is unchanged. The hypothesis on Nk and Nr is 10_state.md R38 item 4, which the
model asserts (log 6). -/
def Obligations.DecryptAcceptanceAddsTheLastRoundKey : Prop :=
  ∀ (s : State) (keylen : BitVec 6),
    s.phase = .idle → s.keyValid = true → contextOk s = true →
    ∃ t, exec (.decrypt keylen) s = .next t ∧
      (∀ c : Fin 4, column t.st c = column s.din c ^^^ s.w.getD (4 * s.nr.toNat + c.val) 0) ∧
      t.rnd.toNat = s.nr.toNat - 1 ∧
      t = { s with
        ctrlCmd := 3#3, ctrlKeylen := keylen, st := t.st, rnd := t.rnd,
        done := false, err := 0#3, phase := .dec }

/-- R103, R106, R253: every command write stores the CTRL fields and reports exactly one outcome,
by the first check that applies; a NOP or a rejection changes nothing else, and an acceptance sets
ERR to NONE and the phase and DONE of its operation. The premise is 10_state.md R38 item 4
(`InvariantKeptByEveryStep`), which the model asserts (log 6). -/
def Obligations.CommandWriteReportsTheFirstOutcome : Prop :=
  ∀ (s : State) (x : HtWord), (s.keyValid = true → contextOk s = true) →
    x.extractLsb' 32 6 = 0x20#6 →
    let cmd := x.extractLsb' 0 3
    let keylen := x.extractLsb' 8 6
    let rejection : BitVec 3 :=
      if 5 ≤ cmd.toNat then 5#3
      else if s.phase ≠ .idle then 4#3
      else if cmd = 1#3 then (if keylen.toNat ∈ [16, 24, 32] then 0#3 else 1#3)
      else if cmd = 4#3 then 0#3
      else if s.keyValid = false then 3#3
      else 0#3
    ∃ t, exec (decodeHt x) s = .next t ∧ t.ctrlCmd = cmd ∧ t.ctrlKeylen = keylen ∧
      (cmd = 0#3 → t = { s with ctrlCmd := cmd, ctrlKeylen := keylen }) ∧
      (cmd ≠ 0#3 → rejection ≠ 0#3 →
        t = { s with ctrlCmd := cmd, ctrlKeylen := keylen, err := rejection }) ∧
      (cmd ≠ 0#3 → rejection = 0#3 → t.err = 0#3 ∧
        (cmd = 1#3 → t.phase = .expand ∧ t.done = false) ∧
        (cmd = 2#3 → t.phase = .enc ∧ t.done = false) ∧
        (cmd = 3#3 → t.phase = .dec ∧ t.done = false) ∧
        (cmd = 4#3 → t.phase = .idle ∧ t.done = true))

/-- Where the model stops: a counter outside the range of 10_state.md R36, or a valid key without
a key context, are asserted away by a named fault (the model's choice, log 6). -/
def Obligations.AssertionsFaultByName : Prop :=
  ∀ (s : State) (keylen : BitVec 6),
    (s.phase = .expand → expandInRange s = false →
      coreStep s = .fault (.counterOutOfRange .expand)) ∧
    (s.phase = .enc → encInRange s = false → coreStep s = .fault (.counterOutOfRange .enc)) ∧
    (s.phase = .dec → decInRange s = false → coreStep s = .fault (.counterOutOfRange .dec)) ∧
    (s.phase = .idle → s.keyValid = true → contextOk s = false →
      exec (.decrypt keylen) s = .fault .noKeyContext)

/-! ## Micro-steps -/

/-- R162: an EXPAND micro-step before the last computes `W[i]` by the branch of `i mod Nk` and
advances `i`; nothing else changes. -/
def Obligations.ExpandStepComputesOneWord : Prop :=
  ∀ s : State, s.phase = .expand → expandInRange s = true →
    s.i.toNat < 4 * (s.nr.toNat + 1) - 1 →
    let nk := s.nk.toNat
    let i := s.i.toNat
    let prev := s.w.getD (i - 1) 0
    let temp : Word :=
      if i % nk = 0 then subWord (rotWord prev) ^^^ ((rcon (i / nk)).setWidth 32 <<< 24)
      else if nk > 6 ∧ i % nk = 4 then subWord prev
      else prev
    ∃ t, coreStep s = .next t ∧ t.i.toNat = i + 1 ∧
      (∀ j, j < 60 →
        t.w.getD j 0 = if j = i then s.w.getD (i - nk) 0 ^^^ temp else s.w.getD j 0) ∧
      t = { s with w := t.w, i := t.i }

/-- R163: the last EXPAND micro-step computes `W[i]` the same way and in the same step sets
KEY_VALID and DONE and ends the operation; ERR and everything else is unchanged. That `i` stays
is the model's reading (log 7). -/
def Obligations.LastExpandStepMakesTheKeyValid : Prop :=
  ∀ s : State, s.phase = .expand → expandInRange s = true →
    s.i.toNat = 4 * (s.nr.toNat + 1) - 1 →
    let nk := s.nk.toNat
    let i := s.i.toNat
    let prev := s.w.getD (i - 1) 0
    let temp : Word :=
      if i % nk = 0 then subWord (rotWord prev) ^^^ ((rcon (i / nk)).setWidth 32 <<< 24)
      else if nk > 6 ∧ i % nk = 4 then subWord prev
      else prev
    ∃ t, coreStep s = .next t ∧
      (∀ j, j < 60 →
        t.w.getD j 0 = if j = i then s.w.getD (i - nk) 0 ^^^ temp else s.w.getD j 0) ∧
      t = { s with w := t.w, keyValid := true, done := true, phase := .idle }

/-- R136: an EXPAND micro-step reads RCON only when `i mod Nk = 0`, and then at the index
`k = i div Nk`, which is 1..10 for Nk = 4, 1..8 for Nk = 6 and 1..7 for Nk = 8: that is the constant
in the word it computes, and no other word has one. It holds of the last micro-step too. -/
def Obligations.RoundConstantIndexIsOneToTen : Prop :=
  ∀ s : State, s.phase = .expand → expandInRange s = true →
    let nk := s.nk.toNat
    let i := s.i.toNat
    let prev := s.w.getD (i - 1) 0
    ∃ t, coreStep s = .next t ∧
      (i % nk = 0 → ∃ k, i = k * nk ∧ 1 ≤ k ∧ k ≤ 10 ∧ (nk = 6 → k ≤ 8) ∧ (nk = 8 → k ≤ 7) ∧
        t.w.getD i 0 =
          s.w.getD (i - nk) 0 ^^^ subWord (rotWord prev) ^^^ ((rcon k).setWidth 32 <<< 24)) ∧
      (i % nk ≠ 0 → t.w.getD i 0 =
        s.w.getD (i - nk) 0 ^^^ (if nk > 6 ∧ i % nk = 4 then subWord prev else prev))

/-- R185, with R181 to R184 written out byte by byte: an ENC micro-step before the last is one
full round with round key `rnd`; nothing but S and `rnd` changes; and the order of SubBytes and
ShiftRows does not matter. -/
def Obligations.EncStepIsOneFullRound : Prop :=
  ∀ s : State, s.phase = .enc → encInRange s = true → s.rnd.toNat < s.nr.toNat →
    ∃ t, coreStep s = .next t ∧ t.rnd.toNat = s.rnd.toNat + 1 ∧
      t = { s with st := t.st, rnd := t.rnd } ∧
      subBytes (shiftRows s.st) = shiftRows (subBytes s.st) ∧
      ∀ c : Fin 4,
        let a0 := sbox (cell s.st 0 c)
        let a1 := sbox (cell s.st 1 (c + 1))
        let a2 := sbox (cell s.st 2 (c + 2))
        let a3 := sbox (cell s.st 3 (c + 3))
        let k := s.w.getD (4 * s.rnd.toNat + c.val) 0
        cell t.st 0 c = gmul 2 a0 ^^^ gmul 3 a1 ^^^ a2 ^^^ a3 ^^^ byteAt 0 k ∧
        cell t.st 1 c = a0 ^^^ gmul 2 a1 ^^^ gmul 3 a2 ^^^ a3 ^^^ byteAt 1 k ∧
        cell t.st 2 c = a0 ^^^ a1 ^^^ gmul 2 a2 ^^^ gmul 3 a3 ^^^ byteAt 2 k ∧
        cell t.st 3 c = gmul 3 a0 ^^^ a1 ^^^ a2 ^^^ gmul 2 a3 ^^^ byteAt 3 k

/-- R186: the last ENC micro-step has no MixColumns, writes S and the four words of DOUT with the
same value, sets DONE and ends the operation; nothing else changes. That `rnd` stays is the
model's reading (log 7). -/
def Obligations.LastEncStepDeliversTheBlock : Prop :=
  ∀ s : State, s.phase = .enc → encInRange s = true → s.rnd.toNat = s.nr.toNat →
    ∃ t, coreStep s = .next t ∧
      t = { s with st := t.st, dout := t.st, done := true, phase := .idle } ∧
      ∀ c r : Fin 4,
        cell t.st r c =
          sbox (cell s.st r (c + r)) ^^^ byteAt r (s.w.getD (4 * s.nr.toNat + c.val) 0)

/-- R205, with R201 to R203 written out byte by byte: a DEC micro-step with `rnd >= 1` is one full
inverse round with the forward round key `rnd`; nothing but S and `rnd` changes; the order of the
first two transforms does not matter, and InvMixColumns may be applied to the round key instead. -/
def Obligations.DecStepIsOneFullInverseRound : Prop :=
  ∀ s : State, s.phase = .dec → decInRange s = true → 1 ≤ s.rnd.toNat →
    ∃ t, coreStep s = .next t ∧ t.rnd.toNat = s.rnd.toNat - 1 ∧
      t = { s with st := t.st, rnd := t.rnd } ∧
      invSubBytes (invShiftRows s.st) = invShiftRows (invSubBytes s.st) ∧
      t.st = xorBlock (invMixColumns (invSubBytes (invShiftRows s.st)))
        (invMixColumns (roundKey s.w s.rnd.toNat)) ∧
      ∀ c : Fin 4,
        let k := s.w.getD (4 * s.rnd.toNat + c.val) 0
        let a0 := invSbox (cell s.st 0 c) ^^^ byteAt 0 k
        let a1 := invSbox (cell s.st 1 (c - 1)) ^^^ byteAt 1 k
        let a2 := invSbox (cell s.st 2 (c - 2)) ^^^ byteAt 2 k
        let a3 := invSbox (cell s.st 3 (c - 3)) ^^^ byteAt 3 k
        cell t.st 0 c = gmul 0x0e a0 ^^^ gmul 0x0b a1 ^^^ gmul 0x0d a2 ^^^ gmul 0x09 a3 ∧
        cell t.st 1 c = gmul 0x09 a0 ^^^ gmul 0x0e a1 ^^^ gmul 0x0b a2 ^^^ gmul 0x0d a3 ∧
        cell t.st 2 c = gmul 0x0d a0 ^^^ gmul 0x09 a1 ^^^ gmul 0x0e a2 ^^^ gmul 0x0b a3 ∧
        cell t.st 3 c = gmul 0x0b a0 ^^^ gmul 0x0d a1 ^^^ gmul 0x09 a2 ^^^ gmul 0x0e a3

/-- R206: the last DEC micro-step has no InvMixColumns, uses round key 0, writes S and the four
words of DOUT with the same value, sets DONE and ends the operation; nothing else changes. That
`rnd` stays is the model's reading (log 7). -/
def Obligations.LastDecStepDeliversTheBlock : Prop :=
  ∀ s : State, s.phase = .dec → decInRange s = true → s.rnd.toNat = 0 →
    ∃ t, coreStep s = .next t ∧
      t = { s with st := t.st, dout := t.st, done := true, phase := .idle } ∧
      ∀ c r : Fin 4,
        cell t.st r c = invSbox (cell s.st r (c - r)) ^^^ byteAt r (s.w.getD c.val 0)

/-! ## The invariant, and rules about the whole machine -/

/-- The state after reset meets the invariant (10_state.md R38). -/
def Obligations.ResetStateMeetsTheInvariant : Prop := BlockInv State.reset

/-- 10_state.md R38: every step keeps the invariant, from every state that meets it, whatever the
host, the core or reset does (the event list is the model's form, log 2). -/
def Obligations.InvariantKeptByEveryStep : Prop :=
  ∀ s t : State, BlockInv s → step s = .next t → BlockInv t

/-- 10_state.md R39: a run from reset never stops, whatever is sent and in whatever order. The event
list and the values that reset leaves where R39 gives none are the model's (logs 1 and 2). -/
def Obligations.RunsFromResetNeverStop : Prop :=
  ∀ es : List Event, SafeRun { State.reset with events := es }

/-- 10_state.md R38 item 4: the schedule, Nk and Nr do not change in a step that starts and ends
with KEY_VALID = 1. The hypothesis is R38 item 2. -/
def Obligations.ScheduleIsFixedWhileTheKeyIsValid : Prop :=
  ∀ s t : State, (s.phase = .expand → s.keyValid = false) → step s = .next t →
    s.keyValid = true → t.keyValid = true → t.w = s.w ∧ t.nk = s.nk ∧ t.nr = s.nr

/-- R31: DOUT changes only in the last micro-step of an ENCRYPT or DECRYPT, which also ends the
operation and sets DONE, or at reset. -/
def Obligations.OnlyACompletedBlockChangesDout : Prop :=
  ∀ s t : State, step s = .next t → t.dout ≠ s.dout →
    nextIsReset s ∨ (nextDelivers s ∧ t.phase = .idle ∧ t.done = true)

/-- R27: a CTRL write other than NOP sets ERR to its outcome, an accepted command to NONE and a
rejected one to its code; no other step but reset changes ERR. Which step comes is read from the
event list, the model's form (log 2). -/
def Obligations.ErrIsTheLastCommandsOutcome : Prop :=
  ∀ s t : State, step s = .next t →
    (∀ ht, nextTransaction s = some ht → ht.extractLsb' 32 6 = 0x20#6 →
      ht.extractLsb' 0 3 ≠ 0#3 →
      t.err =
        if 5 ≤ (ht.extractLsb' 0 3).toNat then 5#3
        else if s.phase ≠ .idle then 4#3
        else if ht.extractLsb' 0 3 = 1#3 then
          (if (ht.extractLsb' 8 6).toNat ∈ [16, 24, 32] then 0#3 else 1#3)
        else if ht.extractLsb' 0 3 ≠ 4#3 ∧ s.keyValid = false then 3#3
        else 0#3) ∧
    (∀ ht, nextTransaction s = some ht →
      (ht.extractLsb' 32 6 ≠ 0x20#6 ∨ ht.extractLsb' 0 3 = 0#3) → t.err = s.err) ∧
    (nextIsCore s → t.err = s.err) ∧
    (nextIsReset s → t.err = 0#3)

/-- R28, R166, R270: a KEY register changes only by a WRITE_KEY to it, by a CLEAR_KEY accepted
while idle, or at reset. -/
def Obligations.OnlyWriteKeyClearKeyAndResetChangeKey : Prop :=
  ∀ (s t : State) (j : Nat), step s = .next t → t.key.getD j 0 ≠ s.key.getD j 0 →
    nextIsReset s ∨ ∃ ht, nextTransaction s = some ht ∧
      ((∃ idx data, decodeHt ht = .writeKey idx data ∧ idx.toNat = 8 + j ∧
          t.key.getD j 0 = data) ∨
        (∃ keylen, decodeHt ht = .clearKey keylen ∧ s.phase = .idle ∧ t.key.getD j 0 = 0))

/-- R33: Nk and Nr change only by an accepted LOAD_KEY, which sets both from KEYLEN, or at
reset, where their new value is the model's choice (log 5) and nothing is said of it. -/
def Obligations.OnlyLoadKeyAndResetChangeNkNr : Prop :=
  ∀ s t : State, step s = .next t → (t.nk ≠ s.nk ∨ t.nr ≠ s.nr) →
    nextIsReset s ∨ ∃ ht keylen, nextTransaction s = some ht ∧ decodeHt ht = .loadKey keylen ∧
      s.phase = .idle ∧ keylen.toNat ∈ [16, 24, 32] ∧
      t.nk.toNat = keylen.toNat / 4 ∧ t.nr.toNat = t.nk.toNat + 6

/-- R24, R34: only an accepted LOAD_KEY, ENCRYPT or DECRYPT takes the phase from IDLE, each to its
own phase. -/
def Obligations.OnlyAnAcceptedCommandLeavesIdle : Prop :=
  ∀ s t : State, step s = .next t → s.phase = .idle → t.phase ≠ .idle →
    ∃ ht keylen, nextTransaction s = some ht ∧
      ((decodeHt ht = .loadKey keylen ∧ keylen.toNat ∈ [16, 24, 32] ∧ t.phase = .expand) ∨
        (decodeHt ht = .encrypt keylen ∧ s.keyValid = true ∧ t.phase = .enc) ∨
        (decodeHt ht = .decrypt keylen ∧ s.keyValid = true ∧ t.phase = .dec))

/-- R69, R251, R282: a busy block becomes idle only at reset or in the last micro-step of its
operation, which sets DONE and leaves ERR; after EXPAND the key is valid, after ENC and DEC the
result S is in DOUT. -/
def Obligations.CompletionIsOneVisibleStep : Prop :=
  ∀ s t : State, step s = .next t → s.phase ≠ .idle → t.phase = .idle →
    nextIsReset s ∨ (nextIsCore s ∧ t.done = true ∧ t.err = s.err ∧
      (s.phase = .expand → t.keyValid = true ∧ t.dout = s.dout) ∧
      (s.phase ≠ .expand → t.dout = t.st ∧ t.keyValid = s.keyValid ∧ t.w = s.w))

/-! ## The cipher's algebra -/

/-- R131: gmul is commutative and associative, has 1 and 0 as its unit and zero, distributes over
xor, and xtime is multiplication by 2 (the xtime formula is general knowledge in the spec). -/
def Obligations.GmulIsAFieldMultiplication : Prop :=
  ∀ a b c : Byte, gmul a b = gmul b a ∧ gmul (gmul a b) c = gmul a (gmul b c) ∧
    gmul a 1 = a ∧ gmul a 0 = 0 ∧ gmul a (b ^^^ c) = gmul a b ^^^ gmul a c ∧
    xtime a = gmul a 2

/-- R132, R133: ginv is the unique multiplicative inverse, 0 for 0, and every entry of SBOX is the
affine transform of the inverse (general knowledge in the spec). -/
def Obligations.SboxIsTheAffineInverse : Prop :=
  ginv 0 = 0 ∧
  ∀ x : Byte, (x ≠ 0 → ∀ b, gmul x b = 1 ↔ b = ginv x) ∧
    sbox x = ginv x ^^^ (ginv x).rotateLeft 1 ^^^ (ginv x).rotateLeft 2 ^^^
      (ginv x).rotateLeft 3 ^^^ (ginv x).rotateLeft 4 ^^^ 0x63#8

/-- R133, R134: SBOX is a permutation with no fixed point and INVSBOX its inverse, on both
sides. -/
def Obligations.InvSboxInvertsSbox : Prop :=
  ∀ x : Byte, invSbox (sbox x) = x ∧ sbox (invSbox x) = x ∧ sbox x ≠ x

/-- R135: RCON[0] = 0 and RCON[k] is the power x^(k-1) for k in 1..29. -/
def Obligations.RconIsThePowersOfX : Prop :=
  rcon 0 = 0 ∧ ∀ k, 1 ≤ k → k ≤ 29 → rcon k = xtimePow (k - 1) 1

/-- R201, R202, R203: the inverse transforms undo the forward ones, and InvMixColumns is linear
over xor. -/
def Obligations.InverseTransformsUndoTheForwardOnes : Prop :=
  ∀ a b : Block, invSubBytes (subBytes a) = a ∧ invShiftRows (shiftRows a) = a ∧
    invMixColumns (mixColumns a) = a ∧
    invMixColumns (xorBlock a b) = xorBlock (invMixColumns a) (invMixColumns b)

/-- R142: the key transform of the T-table inverse round is InvMixColumns of the one column. -/
def Obligations.KeyTransformIsInvMixColumns : Prop :=
  ∀ w : Word, invMixColumnWord w = invMixColumn w

/-- R187: the T-table full round and the SBOX-lookup final round equal the byte-wise rounds, for
every schedule, round and state. -/
def Obligations.TableForwardRoundsEqualByteWiseRounds : Prop :=
  ∀ (w : Vector Word 60) (r : Nat) (b : Block),
    tableFullRound w r b = fullRound w r b ∧ tableFinalRound w r b = finalRound w r b

/-- R207: the InvT-table full inverse round, its round key passed through InvMixColumnWord, and
the INVSBOX-lookup final round equal the byte-wise inverse rounds. -/
def Obligations.TableInverseRoundsEqualByteWiseRounds : Prop :=
  ∀ (w : Vector Word 60) (r : Nat) (b : Block),
    tableInvFullRound w r b = invFullRound w r b ∧ tableInvFinalRound w b = invFinalRound w b

/-- R209: decryption undoes encryption, under every schedule and every number of rounds from 1
on. -/
def Obligations.DecryptUndoesEncrypt : Prop :=
  ∀ (w : Vector Word 60) (nr : Nat) (p : Block), 1 ≤ nr →
    decryptBlock w nr (encryptBlock w nr p) = p

/-! ## Whole operations, under every interleaving -/

/-- R160 to R168: an accepted LOAD_KEY followed by any host transactions and exactly
`4(Nr+1) - Nk` turns of the core, the last of them last, ends idle with KEY_VALID and DONE set and
with `ExpandKey` of the key words it copied in W. The event list is the model's form (log 2). -/
def Obligations.LoadKeyEndsWithTheExpandedKey : Prop :=
  ∀ (s : State) (keylen : BitVec 6) (es : List Event),
    s.phase = .idle → (keylen.toNat = 16 ∨ keylen.toNat = 24 ∨ keylen.toNat = 32) →
    s.events = .host (encode (.loadKey keylen)) :: es ++ [.core] → NoReset es →
    let nk := keylen.toNat / 4
    coreTurns es + 1 = 4 * (nk + 7) - nk →
    ∃ t, runSteps (es.length + 2) s = .next t ∧ t.phase = .idle ∧ t.keyValid = true ∧
      t.done = true ∧ t.nk.toNat = nk ∧ t.nr.toNat = nk + 6 ∧ t.dout = s.dout ∧
      ∀ j, j < 4 * (nk + 7) → t.w.getD j 0 = (expandKey nk s.key).getD j 0

/-- R188, R189: an accepted ENCRYPT followed by any host transactions and exactly Nr turns of the
core, the last of them last, ends idle and done with `Encrypt(W, Nr, DIN)` in DOUT, for DIN as it
was at acceptance, and with the key context unchanged. The event list is the model's form
(log 2). -/
def Obligations.EncryptEndsWithTheCiphertext : Prop :=
  ∀ (s : State) (keylen : BitVec 6) (es : List Event),
    s.phase = .idle → s.keyValid = true → contextOk s = true →
    s.events = .host (encode (.encrypt keylen)) :: es ++ [.core] → NoReset es →
    coreTurns es + 1 = s.nr.toNat →
    ∃ t, runSteps (es.length + 2) s = .next t ∧ t.phase = .idle ∧ t.done = true ∧
      t.dout = encryptBlock s.w s.nr.toNat s.din ∧
      t.keyValid = true ∧ t.w = s.w ∧ t.nk = s.nk ∧ t.nr = s.nr

/-- R208: an accepted DECRYPT followed by any host transactions and exactly Nr turns of the core,
the last of them last, ends idle and done with `Decrypt(W, Nr, DIN)` in DOUT, for DIN as it was at
acceptance, and with the key context unchanged. The event list is the model's form (log 2). -/
def Obligations.DecryptEndsWithThePlaintext : Prop :=
  ∀ (s : State) (keylen : BitVec 6) (es : List Event),
    s.phase = .idle → s.keyValid = true → contextOk s = true →
    s.events = .host (encode (.decrypt keylen)) :: es ++ [.core] → NoReset es →
    coreTurns es + 1 = s.nr.toNat →
    ∃ t, runSteps (es.length + 2) s = .next t ∧ t.phase = .idle ∧ t.done = true ∧
      t.dout = decryptBlock s.w s.nr.toNat s.din ∧
      t.keyValid = true ∧ t.w = s.w ∧ t.nk = s.nk ∧ t.nr = s.nr

/-- R165, R189, R280, R282: left alone, a busy block ends its operation after exactly the
micro-steps that are left, at most 52, and is busy before that. That the core goes on when no event
is pending is the model's form of fairness (log 2). -/
def Obligations.OperationEndsAfterItsMicroSteps : Prop :=
  ∀ s : State, BlockInv s → s.events = [] →
    stepsLeft s ≤ 52 ∧
    (∃ t, runSteps (stepsLeft s) s = .next t ∧ t.phase = .idle) ∧
    (∀ k, k < stepsLeft s → ∃ t, runSteps k s = .next t ∧ t.phase ≠ .idle)

/-- R104, R276, R278: a micro-step and a transaction that is no command and reads neither STATUS
nor DOUT give the same state in both orders. The list of responses is part of that state (log 4). -/
def Obligations.HoldingRegisterAccessCommutesWithTheCore : Prop :=
  ∀ (s s1 : State) (ins : Instr), coreStep s = .next s1 →
    ((∃ idx data, ins = .writeKey idx data) ∨ (∃ idx data, ins = .writeDin idx data) ∨
      (∃ keylen, ins = .nop keylen) ∨
      (∃ idx : BitVec 5, ins = .readReg idx ∧ idx.toNat ≠ 1 ∧
        ¬ (20 ≤ idx.toNat ∧ idx.toNat ≤ 23))) →
    ∃ s2 t, exec ins s = .next s2 ∧ coreStep s2 = .next t ∧ exec ins s1 = .next t

/-- R40, R28, R32, R261: KEY, W and S reach the host through nothing but a delivered block: two
states that differ only in them make steps to states that differ only in them, unless the step is
the last micro-step of an ENCRYPT or DECRYPT, and then only DOUT may differ besides. What the host
sends and receives is in the state (logs 2 and 4). -/
def Obligations.SecretsReachOnlyADeliveredBlock : Prop :=
  ∀ s t s1 : State, SameButSecrets s t → step s = .next s1 →
    ∃ t1, step t = .next t1 ∧
      (¬ nextDelivers s → SameButSecrets s1 t1) ∧
      (nextDelivers s → SameButSecrets { s1 with dout := t1.dout } t1)
end

