-- ==== Sys2Proof/Laws/Bytes.lean ====
section
/-! SUPPORT. Bytes, packing and columns: the laws that let a claim about a word be proved byte by
byte, and one about a block column by column. -/

namespace Sys2Proof.Machine

/-! ## Columns of a block -/

@[simp] theorem column_ofColumns (f : Fin 4 → Word) (c : Fin 4) : column (ofColumns f) c = f c := by
  match c with
  | 0 => rfl
  | 1 => rfl
  | 2 => rfl
  | 3 => rfl

@[simp] theorem ofColumns_column (b : Block) : ofColumns (column b) = b := rfl

/-- Two blocks with the same columns are equal. -/
theorem block_ext {a b : Block} (h : ∀ c, column a c = column b c) : a = b := by
  rw [← ofColumns_column a, ← ofColumns_column b]
  exact congrArg ofColumns (funext h)

@[simp] theorem column_setColumn (b : Block) (c d : Fin 4) (v : Word) :
    column (setColumn b c v) d = if d = c then v else column b d := by
  match c, d with
  | 0, 0 | 0, 1 | 0, 2 | 0, 3 => rfl
  | 1, 0 | 1, 1 | 1, 2 | 1, 3 => rfl
  | 2, 0 | 2, 1 | 2, 2 | 2, 3 => rfl
  | 3, 0 | 3, 1 | 3, 2 | 3, 3 => rfl

@[simp] theorem column_xorBlock (a b : Block) (c : Fin 4) :
    column (xorBlock a b) c = column a c ^^^ column b c := by
  simp [xorBlock]

@[simp] theorem column_roundKey (w : Vector Word 60) (r : Nat) (c : Fin 4) :
    column (roundKey w r) c = w.getD (4 * r + c.val) 0 := by
  simp [roundKey]

/-- AddRoundKey, column by column. -/
@[simp] theorem column_addRoundKey (w : Vector Word 60) (b : Block) (r : Nat) (c : Fin 4) :
    column (addRoundKey w b r) c = column b c ^^^ w.getD (4 * r + c.val) 0 := by
  simp [addRoundKey]

/-- AddRoundKey is its own inverse. -/
@[simp] theorem addRoundKey_twice (w : Vector Word 60) (b : Block) (r : Nat) :
    addRoundKey w (addRoundKey w b r) r = b := by
  apply block_ext
  simp

/-! ## Bytes of a word -/

@[simp] theorem byteAt_pack_0 (a b c d : Byte) : byteAt 0 (pack a b c d) = a := by
  ext i hi
  simp only [byteAt, pack, BitVec.getElem_extractLsb', BitVec.getLsbD_append]
  simp [show ¬ 24 + i < 8 by omega, show ¬ 24 + i - 8 < 8 by omega,
    show ¬ 24 + i - 8 - 8 < 8 by omega, show 24 + i - 8 - 8 - 8 = i by omega,
    BitVec.getLsbD_eq_getElem hi]

@[simp] theorem byteAt_pack_1 (a b c d : Byte) : byteAt 1 (pack a b c d) = b := by
  ext i hi
  simp only [byteAt, pack, BitVec.getElem_extractLsb', BitVec.getLsbD_append]
  rw [if_neg (by omega), if_neg (by omega), if_pos (by omega)]
  simp [show 16 + i - 8 - 8 = i by omega, BitVec.getLsbD_eq_getElem hi]

@[simp] theorem byteAt_pack_2 (a b c d : Byte) : byteAt 2 (pack a b c d) = c := by
  ext i hi
  simp only [byteAt, pack, BitVec.getElem_extractLsb', BitVec.getLsbD_append]
  rw [if_neg (by omega), if_pos (by omega)]
  simp [BitVec.getLsbD_eq_getElem hi]

@[simp] theorem byteAt_pack_3 (a b c d : Byte) : byteAt 3 (pack a b c d) = d := by
  ext i hi
  simp only [byteAt, pack, BitVec.getElem_extractLsb', BitVec.getLsbD_append]
  simp [show i < 8 by omega]

/-- Two words with the same four bytes are equal. -/
theorem word_ext {v w : Word} (h0 : byteAt 0 v = byteAt 0 w) (h1 : byteAt 1 v = byteAt 1 w)
    (h2 : byteAt 2 v = byteAt 2 w) (h3 : byteAt 3 v = byteAt 3 w) : v = w := by
  have key : ∀ (k : Fin 4), byteAt k v = byteAt k w → ∀ i, i < 8 →
      v.getLsbD (24 - 8 * k.val + i) = w.getLsbD (24 - 8 * k.val + i) := by
    intro k hk i hi
    have := congrArg (fun b : Byte => b.getLsbD i) hk
    simpa [byteAt, hi] using this
  apply BitVec.eq_of_getLsbD_eq
  intro i hi
  by_cases a : i < 8
  · simpa using key 3 h3 i a
  · by_cases b : i < 16
    · have := key 2 h2 (i - 8) (by omega)
      simpa [show 8 + (i - 8) = i by omega] using this
    · by_cases c : i < 24
      · have := key 1 h1 (i - 16) (by omega)
        simpa [show 16 + (i - 16) = i by omega] using this
      · have := key 0 h0 (i - 24) (by omega)
        simpa [show 24 + (i - 24) = i by omega] using this

/-- A word is the packing of its bytes. -/
@[simp] theorem pack_byteAt (w : Word) :
    pack (byteAt 0 w) (byteAt 1 w) (byteAt 2 w) (byteAt 3 w) = w := by
  apply word_ext <;> simp

/-- Exclusive or acts on each byte by itself. -/
@[simp] theorem byteAt_xor (k : Fin 4) (v w : Word) :
    byteAt k (v ^^^ w) = byteAt k v ^^^ byteAt k w := by
  simp only [byteAt]
  ext i hi
  simp

/-- Exclusive or of packed words is byte by byte. -/
theorem pack_xor (a b c d a' b' c' d' : Byte) :
    pack a b c d ^^^ pack a' b' c' d' = pack (a ^^^ a') (b ^^^ b') (c ^^^ c') (d ^^^ d') := by
  apply word_ext <;> simp

/-! ## Rotations by whole bytes -/

/-- Rotation by one byte, as in RotWord and T3 (spec/41_tables.md R138, R140). -/
theorem rotl32_pack_8 (a b c d : Byte) : rotl32 (pack a b c d) 8 = pack b c d a := by
  apply BitVec.eq_of_getLsbD_eq
  intro i hi
  simp only [rotl32, pack, BitVec.getLsbD_rotateLeft, BitVec.getLsbD_append]
  interval_cases i <;> simp

/-- Rotation by two bytes, as in T2 (spec/41_tables.md R140). -/
theorem rotl32_pack_16 (a b c d : Byte) : rotl32 (pack a b c d) 16 = pack c d a b := by
  apply BitVec.eq_of_getLsbD_eq
  intro i hi
  simp only [rotl32, pack, BitVec.getLsbD_rotateLeft, BitVec.getLsbD_append]
  interval_cases i <;> simp

/-- Rotation by three bytes, as in T1 (spec/41_tables.md R140). -/
theorem rotl32_pack_24 (a b c d : Byte) : rotl32 (pack a b c d) 24 = pack d a b c := by
  apply BitVec.eq_of_getLsbD_eq
  intro i hi
  simp only [rotl32, pack, BitVec.getLsbD_rotateLeft, BitVec.getLsbD_append]
  interval_cases i <;> simp

end Sys2Proof.Machine
end

