-- ==== Sys2Proof/Laws/Decode.lean ====
section
/-! SUPPORT. The fields of a built word, the word of its fields, and which words are writes to
which register (spec/30_encoding.md R80, R81, R85). -/

namespace Sys2Proof

/-! ## Fields of a built word -/

@[simp] theorem htWe_mkHt (we : BitVec 1) (idx : BitVec 5) (data : Word) :
    htWe (mkHt we idx data) = we := by
  unfold htWe mkHt
  ext k hk
  obtain rfl : k = 0 := by omega
  simp only [BitVec.getElem_extractLsb', BitVec.getLsbD_append]
  simp

@[simp] theorem htIdx_mkHt (we : BitVec 1) (idx : BitVec 5) (data : Word) :
    htIdx (mkHt we idx data) = idx := by
  unfold htIdx mkHt
  ext k hk
  simp only [BitVec.getElem_extractLsb', BitVec.getLsbD_append]
  simp [hk]

@[simp] theorem htData_mkHt (we : BitVec 1) (idx : BitVec 5) (data : Word) :
    htData (mkHt we idx data) = data := by
  unfold htData mkHt
  ext k hk
  simp only [BitVec.getElem_extractLsb', BitVec.getLsbD_append]
  simp [hk]

@[simp] theorem cwKeylen_mkCw (keylen : BitVec 6) (cmd : BitVec 3) :
    cwKeylen (mkCw keylen cmd) = keylen := by
  unfold cwKeylen mkCw
  ext j hj
  simp only [BitVec.getElem_extractLsb', BitVec.getLsbD_append]
  rw [if_neg (by omega), if_neg (by omega), if_pos (by omega)]
  simp [show 8 + j - 3 - 5 = j by omega, BitVec.getLsbD_eq_getElem hj]

@[simp] theorem cwCmd_mkCw (keylen : BitVec 6) (cmd : BitVec 3) :
    cwCmd (mkCw keylen cmd) = cmd := by
  unfold cwCmd mkCw
  ext j hj
  simp only [BitVec.getElem_extractLsb', BitVec.getLsbD_append]
  simp [hj]

/-- A word is built from its fields. -/
theorem mkHt_fields (x : HtWord) : mkHt (htWe x) (htIdx x) (htData x) = x := by
  unfold mkHt htWe htIdx htData
  apply BitVec.eq_of_getLsbD_eq
  intro j hj
  simp only [BitVec.getLsbD_append, BitVec.getLsbD_extractLsb']
  split
  · simp_all
  · split
    · rename_i h2
      simp [h2, show 32 + (j - 32) = j by omega]
    · obtain rfl : j = 37 := by omega
      simp

/-- KEYLEN straight from the word. -/
theorem cwKeylen_htData (x : HtWord) : cwKeylen (htData x) = x.extractLsb' 8 6 := by
  unfold cwKeylen htData
  ext j hj
  simp

/-- CMD straight from the word. -/
theorem cwCmd_htData (x : HtWord) : cwCmd (htData x) = x.extractLsb' 0 3 := by
  unfold cwCmd htData
  ext j hj
  simp

/-- WE and IDX together, bits 37..32. -/
theorem we_idx_eq (x : HtWord) : x.extractLsb' 32 6 = htWe x ++ htIdx x := by
  unfold htWe htIdx
  apply BitVec.eq_of_getLsbD_eq
  intro j hj
  simp only [BitVec.getLsbD_append, BitVec.getLsbD_extractLsb']
  split
  · simp [*]
  · obtain rfl : j = 5 := by omega
    simp

/-! ## Decoding by kind of word -/

/-- The decoder on a 38-bit word. -/
@[simp] theorem decode_toNat (x : HtWord) : decode x.toNat = .ok (decodeHt x) := by
  simp [decode, x.isLt]

/-- A number that does not fit in 38 bits is rejected by name. -/
theorem decode_tooWide {n : Nat} (h : 2 ^ 38 ≤ n) : decode n = .error .widerThan38Bits := by
  rw [decode, if_neg (Nat.not_lt.mpr h)]

theorem decodeHt_read {x : HtWord} (h : htWe x = 0#1) : decodeHt x = .readReg (htIdx x) := by
  simp [decodeHt, h]

theorem decodeHt_write {x : HtWord} (h : htWe x = 1#1) :
    decodeHt x = decodeWrite (htIdx x) (htData x) := by
  simp [decodeHt, h]

/-- A write to CTRL is a command (spec/40_host_interface.md R103, R105). -/
theorem decodeHt_command {x : HtWord} (h : x.extractLsb' 32 6 = 0x20#6) :
    decodeHt x = decodeCommand (htData x) := by
  have split6 : ∀ (a : BitVec 1) (b : BitVec 5), a ++ b = 0x20#6 → a = 1#1 ∧ b = 0#5 := by decide
  obtain ⟨we, idx⟩ := split6 _ _ ((we_idx_eq x).symm.trans h)
  simp [decodeHt_write we, idx, decodeWrite]

/-- A word that is no write to CTRL decodes to no command. -/
theorem decodeHt_noCommand {x : HtWord} (h : x.extractLsb' 32 6 ≠ 0x20#6) :
    (∃ idx, decodeHt x = .readReg idx) ∨ (∃ idx data, decodeHt x = .writeKey idx data) ∨
      (∃ idx data, decodeHt x = .writeDin idx data) ∨ decodeHt x = .writeStatus ∨
      (∃ idx, decodeHt x = .writeDout idx) ∨ (∃ idx, decodeHt x = .writeRsvd2to3 idx) ∨
      (∃ idx, decodeHt x = .writeRsvd4to7 idx) ∨ (∃ idx, decodeHt x = .writeRsvd24to31 idx) := by
  have bit : ∀ a : BitVec 1, a = 0#1 ∨ a = 1#1 := by decide
  rcases bit (htWe x) with we | we
  · exact .inl ⟨_, decodeHt_read we⟩
  · have idx : (htIdx x).toNat ≠ 0 := by
      intro zero
      apply h
      rw [we_idx_eq, we, show htIdx x = 0#5 from BitVec.eq_of_toNat_eq (by simpa using zero)]
      rfl
    rw [decodeHt_write we]
    unfold decodeWrite
    dsimp only
    repeat' split
    all_goals simp_all

end Sys2Proof
end

