-- ==== Sys2Proof/Laws/State.lean ====
section
/-! SUPPORT. What each named update of the state does to each field: one lemma per field per
update, so that no later proof unfolds an update. -/

namespace Sys2Proof.Machine

/-! ## storeCtrl -/

@[simp] theorem storeCtrl_ctrlCmd (cmd : BitVec 3) (keylen : BitVec 6) (s : State) :
    (storeCtrl cmd keylen s).ctrlCmd = cmd := rfl
@[simp] theorem storeCtrl_ctrlKeylen (cmd : BitVec 3) (keylen : BitVec 6) (s : State) :
    (storeCtrl cmd keylen s).ctrlKeylen = keylen := rfl
@[simp] theorem storeCtrl_key (cmd : BitVec 3) (keylen : BitVec 6) (s : State) :
    (storeCtrl cmd keylen s).key = s.key := rfl
@[simp] theorem storeCtrl_din (cmd : BitVec 3) (keylen : BitVec 6) (s : State) :
    (storeCtrl cmd keylen s).din = s.din := rfl
@[simp] theorem storeCtrl_dout (cmd : BitVec 3) (keylen : BitVec 6) (s : State) :
    (storeCtrl cmd keylen s).dout = s.dout := rfl
@[simp] theorem storeCtrl_phase (cmd : BitVec 3) (keylen : BitVec 6) (s : State) :
    (storeCtrl cmd keylen s).phase = s.phase := rfl
@[simp] theorem storeCtrl_keyValid (cmd : BitVec 3) (keylen : BitVec 6) (s : State) :
    (storeCtrl cmd keylen s).keyValid = s.keyValid := rfl
@[simp] theorem storeCtrl_done (cmd : BitVec 3) (keylen : BitVec 6) (s : State) :
    (storeCtrl cmd keylen s).done = s.done := rfl
@[simp] theorem storeCtrl_err (cmd : BitVec 3) (keylen : BitVec 6) (s : State) :
    (storeCtrl cmd keylen s).err = s.err := rfl
@[simp] theorem storeCtrl_nk (cmd : BitVec 3) (keylen : BitVec 6) (s : State) :
    (storeCtrl cmd keylen s).nk = s.nk := rfl
@[simp] theorem storeCtrl_nr (cmd : BitVec 3) (keylen : BitVec 6) (s : State) :
    (storeCtrl cmd keylen s).nr = s.nr := rfl
@[simp] theorem storeCtrl_w (cmd : BitVec 3) (keylen : BitVec 6) (s : State) :
    (storeCtrl cmd keylen s).w = s.w := rfl
@[simp] theorem storeCtrl_i (cmd : BitVec 3) (keylen : BitVec 6) (s : State) :
    (storeCtrl cmd keylen s).i = s.i := rfl
@[simp] theorem storeCtrl_rnd (cmd : BitVec 3) (keylen : BitVec 6) (s : State) :
    (storeCtrl cmd keylen s).rnd = s.rnd := rfl
@[simp] theorem storeCtrl_st (cmd : BitVec 3) (keylen : BitVec 6) (s : State) :
    (storeCtrl cmd keylen s).st = s.st := rfl
@[simp] theorem storeCtrl_events (cmd : BitVec 3) (keylen : BitVec 6) (s : State) :
    (storeCtrl cmd keylen s).events = s.events := rfl
@[simp] theorem storeCtrl_responses (cmd : BitVec 3) (keylen : BitVec 6) (s : State) :
    (storeCtrl cmd keylen s).responses = s.responses := rfl

/-! ## raise -/

@[simp] theorem raise_ctrlCmd (e : ErrCode) (s : State) : (raise e s).ctrlCmd = s.ctrlCmd := rfl
@[simp] theorem raise_ctrlKeylen (e : ErrCode) (s : State) :
    (raise e s).ctrlKeylen = s.ctrlKeylen := rfl
@[simp] theorem raise_key (e : ErrCode) (s : State) : (raise e s).key = s.key := rfl
@[simp] theorem raise_din (e : ErrCode) (s : State) : (raise e s).din = s.din := rfl
@[simp] theorem raise_dout (e : ErrCode) (s : State) : (raise e s).dout = s.dout := rfl
@[simp] theorem raise_phase (e : ErrCode) (s : State) : (raise e s).phase = s.phase := rfl
@[simp] theorem raise_keyValid (e : ErrCode) (s : State) : (raise e s).keyValid = s.keyValid := rfl
@[simp] theorem raise_done (e : ErrCode) (s : State) : (raise e s).done = s.done := rfl
@[simp] theorem raise_err (e : ErrCode) (s : State) : (raise e s).err = e.code := rfl
@[simp] theorem raise_nk (e : ErrCode) (s : State) : (raise e s).nk = s.nk := rfl
@[simp] theorem raise_nr (e : ErrCode) (s : State) : (raise e s).nr = s.nr := rfl
@[simp] theorem raise_w (e : ErrCode) (s : State) : (raise e s).w = s.w := rfl
@[simp] theorem raise_i (e : ErrCode) (s : State) : (raise e s).i = s.i := rfl
@[simp] theorem raise_rnd (e : ErrCode) (s : State) : (raise e s).rnd = s.rnd := rfl
@[simp] theorem raise_st (e : ErrCode) (s : State) : (raise e s).st = s.st := rfl
@[simp] theorem raise_events (e : ErrCode) (s : State) : (raise e s).events = s.events := rfl
@[simp] theorem raise_responses (e : ErrCode) (s : State) :
    (raise e s).responses = s.responses := rfl

/-! ## accept -/

@[simp] theorem accept_ctrlCmd (p : Phase) (s : State) : (accept p s).ctrlCmd = s.ctrlCmd := rfl
@[simp] theorem accept_ctrlKeylen (p : Phase) (s : State) :
    (accept p s).ctrlKeylen = s.ctrlKeylen := rfl
@[simp] theorem accept_key (p : Phase) (s : State) : (accept p s).key = s.key := rfl
@[simp] theorem accept_din (p : Phase) (s : State) : (accept p s).din = s.din := rfl
@[simp] theorem accept_dout (p : Phase) (s : State) : (accept p s).dout = s.dout := rfl
@[simp] theorem accept_phase (p : Phase) (s : State) : (accept p s).phase = p := rfl
@[simp] theorem accept_keyValid (p : Phase) (s : State) : (accept p s).keyValid = s.keyValid := rfl
@[simp] theorem accept_done (p : Phase) (s : State) : (accept p s).done = false := rfl
@[simp] theorem accept_err (p : Phase) (s : State) : (accept p s).err = 0#3 := rfl
@[simp] theorem accept_nk (p : Phase) (s : State) : (accept p s).nk = s.nk := rfl
@[simp] theorem accept_nr (p : Phase) (s : State) : (accept p s).nr = s.nr := rfl
@[simp] theorem accept_w (p : Phase) (s : State) : (accept p s).w = s.w := rfl
@[simp] theorem accept_i (p : Phase) (s : State) : (accept p s).i = s.i := rfl
@[simp] theorem accept_rnd (p : Phase) (s : State) : (accept p s).rnd = s.rnd := rfl
@[simp] theorem accept_st (p : Phase) (s : State) : (accept p s).st = s.st := rfl
@[simp] theorem accept_events (p : Phase) (s : State) : (accept p s).events = s.events := rfl
@[simp] theorem accept_responses (p : Phase) (s : State) :
    (accept p s).responses = s.responses := rfl

/-! ## respond -/

@[simp] theorem respond_ctrlCmd (v : Word) (s : State) : (respond v s).ctrlCmd = s.ctrlCmd := rfl
@[simp] theorem respond_ctrlKeylen (v : Word) (s : State) :
    (respond v s).ctrlKeylen = s.ctrlKeylen := rfl
@[simp] theorem respond_key (v : Word) (s : State) : (respond v s).key = s.key := rfl
@[simp] theorem respond_din (v : Word) (s : State) : (respond v s).din = s.din := rfl
@[simp] theorem respond_dout (v : Word) (s : State) : (respond v s).dout = s.dout := rfl
@[simp] theorem respond_phase (v : Word) (s : State) : (respond v s).phase = s.phase := rfl
@[simp] theorem respond_keyValid (v : Word) (s : State) : (respond v s).keyValid = s.keyValid := rfl
@[simp] theorem respond_done (v : Word) (s : State) : (respond v s).done = s.done := rfl
@[simp] theorem respond_err (v : Word) (s : State) : (respond v s).err = s.err := rfl
@[simp] theorem respond_nk (v : Word) (s : State) : (respond v s).nk = s.nk := rfl
@[simp] theorem respond_nr (v : Word) (s : State) : (respond v s).nr = s.nr := rfl
@[simp] theorem respond_w (v : Word) (s : State) : (respond v s).w = s.w := rfl
@[simp] theorem respond_i (v : Word) (s : State) : (respond v s).i = s.i := rfl
@[simp] theorem respond_rnd (v : Word) (s : State) : (respond v s).rnd = s.rnd := rfl
@[simp] theorem respond_st (v : Word) (s : State) : (respond v s).st = s.st := rfl
@[simp] theorem respond_events (v : Word) (s : State) : (respond v s).events = s.events := rfl
@[simp] theorem respond_responses (v : Word) (s : State) :
    (respond v s).responses = s.responses ++ [v] := rfl

/-! ## deliver -/

@[simp] theorem deliver_ctrlCmd (b : Block) (s : State) : (deliver b s).ctrlCmd = s.ctrlCmd := rfl
@[simp] theorem deliver_ctrlKeylen (b : Block) (s : State) :
    (deliver b s).ctrlKeylen = s.ctrlKeylen := rfl
@[simp] theorem deliver_key (b : Block) (s : State) : (deliver b s).key = s.key := rfl
@[simp] theorem deliver_din (b : Block) (s : State) : (deliver b s).din = s.din := rfl
@[simp] theorem deliver_dout (b : Block) (s : State) : (deliver b s).dout = b := rfl
@[simp] theorem deliver_phase (b : Block) (s : State) : (deliver b s).phase = .idle := rfl
@[simp] theorem deliver_keyValid (b : Block) (s : State) :
    (deliver b s).keyValid = s.keyValid := rfl
@[simp] theorem deliver_done (b : Block) (s : State) : (deliver b s).done = true := rfl
@[simp] theorem deliver_err (b : Block) (s : State) : (deliver b s).err = s.err := rfl
@[simp] theorem deliver_nk (b : Block) (s : State) : (deliver b s).nk = s.nk := rfl
@[simp] theorem deliver_nr (b : Block) (s : State) : (deliver b s).nr = s.nr := rfl
@[simp] theorem deliver_w (b : Block) (s : State) : (deliver b s).w = s.w := rfl
@[simp] theorem deliver_i (b : Block) (s : State) : (deliver b s).i = s.i := rfl
@[simp] theorem deliver_rnd (b : Block) (s : State) : (deliver b s).rnd = s.rnd := rfl
@[simp] theorem deliver_st (b : Block) (s : State) : (deliver b s).st = b := rfl
@[simp] theorem deliver_events (b : Block) (s : State) : (deliver b s).events = s.events := rfl
@[simp] theorem deliver_responses (b : Block) (s : State) :
    (deliver b s).responses = s.responses := rfl

/-! ## acceptLoadKey -/

@[simp] theorem acceptLoadKey_ctrlCmd (keylen : BitVec 6) (s : State) :
    (acceptLoadKey keylen s).ctrlCmd = s.ctrlCmd := rfl
@[simp] theorem acceptLoadKey_ctrlKeylen (keylen : BitVec 6) (s : State) :
    (acceptLoadKey keylen s).ctrlKeylen = s.ctrlKeylen := rfl
@[simp] theorem acceptLoadKey_key (keylen : BitVec 6) (s : State) :
    (acceptLoadKey keylen s).key = s.key := rfl
@[simp] theorem acceptLoadKey_din (keylen : BitVec 6) (s : State) :
    (acceptLoadKey keylen s).din = s.din := rfl
@[simp] theorem acceptLoadKey_dout (keylen : BitVec 6) (s : State) :
    (acceptLoadKey keylen s).dout = s.dout := rfl
@[simp] theorem acceptLoadKey_phase (keylen : BitVec 6) (s : State) :
    (acceptLoadKey keylen s).phase = .expand := rfl
@[simp] theorem acceptLoadKey_keyValid (keylen : BitVec 6) (s : State) :
    (acceptLoadKey keylen s).keyValid = false := rfl
@[simp] theorem acceptLoadKey_done (keylen : BitVec 6) (s : State) :
    (acceptLoadKey keylen s).done = false := rfl
@[simp] theorem acceptLoadKey_err (keylen : BitVec 6) (s : State) :
    (acceptLoadKey keylen s).err = 0#3 := rfl
@[simp] theorem acceptLoadKey_nk (keylen : BitVec 6) (s : State) :
    (acceptLoadKey keylen s).nk = BitVec.ofNat 4 (keyWords keylen) := rfl
@[simp] theorem acceptLoadKey_nr (keylen : BitVec 6) (s : State) :
    (acceptLoadKey keylen s).nr = BitVec.ofNat 4 (keyWords keylen + 6) := rfl
@[simp] theorem acceptLoadKey_w (keylen : BitVec 6) (s : State) :
    (acceptLoadKey keylen s).w = copyKey (keyWords keylen) s.key s.w := rfl
@[simp] theorem acceptLoadKey_i (keylen : BitVec 6) (s : State) :
    (acceptLoadKey keylen s).i = BitVec.ofNat 6 (keyWords keylen) := rfl
@[simp] theorem acceptLoadKey_rnd (keylen : BitVec 6) (s : State) :
    (acceptLoadKey keylen s).rnd = s.rnd := rfl
@[simp] theorem acceptLoadKey_st (keylen : BitVec 6) (s : State) :
    (acceptLoadKey keylen s).st = s.st := rfl
@[simp] theorem acceptLoadKey_events (keylen : BitVec 6) (s : State) :
    (acceptLoadKey keylen s).events = s.events := rfl
@[simp] theorem acceptLoadKey_responses (keylen : BitVec 6) (s : State) :
    (acceptLoadKey keylen s).responses = s.responses := rfl

/-! ## acceptEncrypt -/

@[simp] theorem acceptEncrypt_ctrlCmd (s : State) : (acceptEncrypt s).ctrlCmd = s.ctrlCmd := rfl
@[simp] theorem acceptEncrypt_ctrlKeylen (s : State) :
    (acceptEncrypt s).ctrlKeylen = s.ctrlKeylen := rfl
@[simp] theorem acceptEncrypt_key (s : State) : (acceptEncrypt s).key = s.key := rfl
@[simp] theorem acceptEncrypt_din (s : State) : (acceptEncrypt s).din = s.din := rfl
@[simp] theorem acceptEncrypt_dout (s : State) : (acceptEncrypt s).dout = s.dout := rfl
@[simp] theorem acceptEncrypt_phase (s : State) : (acceptEncrypt s).phase = .enc := rfl
@[simp] theorem acceptEncrypt_keyValid (s : State) : (acceptEncrypt s).keyValid = s.keyValid := rfl
@[simp] theorem acceptEncrypt_done (s : State) : (acceptEncrypt s).done = false := rfl
@[simp] theorem acceptEncrypt_err (s : State) : (acceptEncrypt s).err = 0#3 := rfl
@[simp] theorem acceptEncrypt_nk (s : State) : (acceptEncrypt s).nk = s.nk := rfl
@[simp] theorem acceptEncrypt_nr (s : State) : (acceptEncrypt s).nr = s.nr := rfl
@[simp] theorem acceptEncrypt_w (s : State) : (acceptEncrypt s).w = s.w := rfl
@[simp] theorem acceptEncrypt_i (s : State) : (acceptEncrypt s).i = s.i := rfl
@[simp] theorem acceptEncrypt_rnd (s : State) : (acceptEncrypt s).rnd = 1#4 := rfl
@[simp] theorem acceptEncrypt_st (s : State) : (acceptEncrypt s).st = addRoundKey s.w s.din 0 := rfl
@[simp] theorem acceptEncrypt_events (s : State) : (acceptEncrypt s).events = s.events := rfl
@[simp] theorem acceptEncrypt_responses (s : State) :
    (acceptEncrypt s).responses = s.responses := rfl

/-! ## acceptDecrypt -/

@[simp] theorem acceptDecrypt_ctrlCmd (s : State) : (acceptDecrypt s).ctrlCmd = s.ctrlCmd := rfl
@[simp] theorem acceptDecrypt_ctrlKeylen (s : State) :
    (acceptDecrypt s).ctrlKeylen = s.ctrlKeylen := rfl
@[simp] theorem acceptDecrypt_key (s : State) : (acceptDecrypt s).key = s.key := rfl
@[simp] theorem acceptDecrypt_din (s : State) : (acceptDecrypt s).din = s.din := rfl
@[simp] theorem acceptDecrypt_dout (s : State) : (acceptDecrypt s).dout = s.dout := rfl
@[simp] theorem acceptDecrypt_phase (s : State) : (acceptDecrypt s).phase = .dec := rfl
@[simp] theorem acceptDecrypt_keyValid (s : State) : (acceptDecrypt s).keyValid = s.keyValid := rfl
@[simp] theorem acceptDecrypt_done (s : State) : (acceptDecrypt s).done = false := rfl
@[simp] theorem acceptDecrypt_err (s : State) : (acceptDecrypt s).err = 0#3 := rfl
@[simp] theorem acceptDecrypt_nk (s : State) : (acceptDecrypt s).nk = s.nk := rfl
@[simp] theorem acceptDecrypt_nr (s : State) : (acceptDecrypt s).nr = s.nr := rfl
@[simp] theorem acceptDecrypt_w (s : State) : (acceptDecrypt s).w = s.w := rfl
@[simp] theorem acceptDecrypt_i (s : State) : (acceptDecrypt s).i = s.i := rfl
@[simp] theorem acceptDecrypt_rnd (s : State) : (acceptDecrypt s).rnd = s.nr - 1#4 := rfl
@[simp] theorem acceptDecrypt_st (s : State) :
    (acceptDecrypt s).st = addRoundKey s.w s.din s.nr.toNat := rfl
@[simp] theorem acceptDecrypt_events (s : State) : (acceptDecrypt s).events = s.events := rfl
@[simp] theorem acceptDecrypt_responses (s : State) :
    (acceptDecrypt s).responses = s.responses := rfl

/-! ## acceptClearKey -/

@[simp] theorem acceptClearKey_ctrlCmd (s : State) : (acceptClearKey s).ctrlCmd = s.ctrlCmd := rfl
@[simp] theorem acceptClearKey_ctrlKeylen (s : State) :
    (acceptClearKey s).ctrlKeylen = s.ctrlKeylen := rfl
@[simp] theorem acceptClearKey_key (s : State) :
    (acceptClearKey s).key = Vector.replicate 8 0 := rfl
@[simp] theorem acceptClearKey_din (s : State) : (acceptClearKey s).din = s.din := rfl
@[simp] theorem acceptClearKey_dout (s : State) : (acceptClearKey s).dout = s.dout := rfl
@[simp] theorem acceptClearKey_phase (s : State) : (acceptClearKey s).phase = s.phase := rfl
@[simp] theorem acceptClearKey_keyValid (s : State) : (acceptClearKey s).keyValid = false := rfl
@[simp] theorem acceptClearKey_done (s : State) : (acceptClearKey s).done = true := rfl
@[simp] theorem acceptClearKey_err (s : State) : (acceptClearKey s).err = 0#3 := rfl
@[simp] theorem acceptClearKey_nk (s : State) : (acceptClearKey s).nk = s.nk := rfl
@[simp] theorem acceptClearKey_nr (s : State) : (acceptClearKey s).nr = s.nr := rfl
@[simp] theorem acceptClearKey_w (s : State) : (acceptClearKey s).w = Vector.replicate 60 0 := rfl
@[simp] theorem acceptClearKey_i (s : State) : (acceptClearKey s).i = s.i := rfl
@[simp] theorem acceptClearKey_rnd (s : State) : (acceptClearKey s).rnd = s.rnd := rfl
@[simp] theorem acceptClearKey_st (s : State) : (acceptClearKey s).st = s.st := rfl
@[simp] theorem acceptClearKey_events (s : State) : (acceptClearKey s).events = s.events := rfl
@[simp] theorem acceptClearKey_responses (s : State) :
    (acceptClearKey s).responses = s.responses := rfl

/-! ## resetBlock -/

@[simp] theorem resetBlock_ctrlCmd (s : State) : (resetBlock s).ctrlCmd = State.reset.ctrlCmd := rfl
@[simp] theorem resetBlock_ctrlKeylen (s : State) :
    (resetBlock s).ctrlKeylen = State.reset.ctrlKeylen := rfl
@[simp] theorem resetBlock_key (s : State) : (resetBlock s).key = State.reset.key := rfl
@[simp] theorem resetBlock_din (s : State) : (resetBlock s).din = State.reset.din := rfl
@[simp] theorem resetBlock_dout (s : State) : (resetBlock s).dout = State.reset.dout := rfl
@[simp] theorem resetBlock_phase (s : State) : (resetBlock s).phase = State.reset.phase := rfl
@[simp] theorem resetBlock_keyValid (s : State) :
    (resetBlock s).keyValid = State.reset.keyValid := rfl
@[simp] theorem resetBlock_done (s : State) : (resetBlock s).done = State.reset.done := rfl
@[simp] theorem resetBlock_err (s : State) : (resetBlock s).err = State.reset.err := rfl
@[simp] theorem resetBlock_nk (s : State) : (resetBlock s).nk = State.reset.nk := rfl
@[simp] theorem resetBlock_nr (s : State) : (resetBlock s).nr = State.reset.nr := rfl
@[simp] theorem resetBlock_w (s : State) : (resetBlock s).w = State.reset.w := rfl
@[simp] theorem resetBlock_i (s : State) : (resetBlock s).i = State.reset.i := rfl
@[simp] theorem resetBlock_rnd (s : State) : (resetBlock s).rnd = State.reset.rnd := rfl
@[simp] theorem resetBlock_st (s : State) : (resetBlock s).st = State.reset.st := rfl
@[simp] theorem resetBlock_events (s : State) : (resetBlock s).events = s.events := rfl
@[simp] theorem resetBlock_responses (s : State) : (resetBlock s).responses = s.responses := rfl

/-! ## presentTransaction -/

@[simp] theorem presentTransaction_ctrlCmd (s : State) (ht : HtWord) :
    (presentTransaction s ht).ctrlCmd = s.ctrlCmd := rfl
@[simp] theorem presentTransaction_ctrlKeylen (s : State) (ht : HtWord) :
    (presentTransaction s ht).ctrlKeylen = s.ctrlKeylen := rfl
@[simp] theorem presentTransaction_key (s : State) (ht : HtWord) :
    (presentTransaction s ht).key = s.key := rfl
@[simp] theorem presentTransaction_din (s : State) (ht : HtWord) :
    (presentTransaction s ht).din = s.din := rfl
@[simp] theorem presentTransaction_dout (s : State) (ht : HtWord) :
    (presentTransaction s ht).dout = s.dout := rfl
@[simp] theorem presentTransaction_phase (s : State) (ht : HtWord) :
    (presentTransaction s ht).phase = s.phase := rfl
@[simp] theorem presentTransaction_keyValid (s : State) (ht : HtWord) :
    (presentTransaction s ht).keyValid = s.keyValid := rfl
@[simp] theorem presentTransaction_done (s : State) (ht : HtWord) :
    (presentTransaction s ht).done = s.done := rfl
@[simp] theorem presentTransaction_err (s : State) (ht : HtWord) :
    (presentTransaction s ht).err = s.err := rfl
@[simp] theorem presentTransaction_nk (s : State) (ht : HtWord) :
    (presentTransaction s ht).nk = s.nk := rfl
@[simp] theorem presentTransaction_nr (s : State) (ht : HtWord) :
    (presentTransaction s ht).nr = s.nr := rfl
@[simp] theorem presentTransaction_w (s : State) (ht : HtWord) :
    (presentTransaction s ht).w = s.w := rfl
@[simp] theorem presentTransaction_i (s : State) (ht : HtWord) :
    (presentTransaction s ht).i = s.i := rfl
@[simp] theorem presentTransaction_rnd (s : State) (ht : HtWord) :
    (presentTransaction s ht).rnd = s.rnd := rfl
@[simp] theorem presentTransaction_st (s : State) (ht : HtWord) :
    (presentTransaction s ht).st = s.st := rfl
@[simp] theorem presentTransaction_events (s : State) (ht : HtWord) :
    (presentTransaction s ht).events = .host ht :: s.events := rfl
@[simp] theorem presentTransaction_responses (s : State) (ht : HtWord) :
    (presentTransaction s ht).responses = s.responses := rfl

/-! ## regWrite: a write touches KEY or DIN, nothing else -/

@[simp] theorem regWrite_ctrlCmd (idx : BitVec 5) (v : Word) (s : State) :
    (regWrite idx v s).ctrlCmd = s.ctrlCmd := by
  unfold regWrite; split <;> rfl
@[simp] theorem regWrite_ctrlKeylen (idx : BitVec 5) (v : Word) (s : State) :
    (regWrite idx v s).ctrlKeylen = s.ctrlKeylen := by
  unfold regWrite; split <;> rfl
@[simp] theorem regWrite_dout (idx : BitVec 5) (v : Word) (s : State) :
    (regWrite idx v s).dout = s.dout := by
  unfold regWrite; split <;> rfl
@[simp] theorem regWrite_phase (idx : BitVec 5) (v : Word) (s : State) :
    (regWrite idx v s).phase = s.phase := by
  unfold regWrite; split <;> rfl
@[simp] theorem regWrite_keyValid (idx : BitVec 5) (v : Word) (s : State) :
    (regWrite idx v s).keyValid = s.keyValid := by
  unfold regWrite; split <;> rfl
@[simp] theorem regWrite_done (idx : BitVec 5) (v : Word) (s : State) :
    (regWrite idx v s).done = s.done := by
  unfold regWrite; split <;> rfl
@[simp] theorem regWrite_err (idx : BitVec 5) (v : Word) (s : State) :
    (regWrite idx v s).err = s.err := by
  unfold regWrite; split <;> rfl
@[simp] theorem regWrite_nk (idx : BitVec 5) (v : Word) (s : State) :
    (regWrite idx v s).nk = s.nk := by
  unfold regWrite; split <;> rfl
@[simp] theorem regWrite_nr (idx : BitVec 5) (v : Word) (s : State) :
    (regWrite idx v s).nr = s.nr := by
  unfold regWrite; split <;> rfl
@[simp] theorem regWrite_w (idx : BitVec 5) (v : Word) (s : State) :
    (regWrite idx v s).w = s.w := by
  unfold regWrite; split <;> rfl
@[simp] theorem regWrite_i (idx : BitVec 5) (v : Word) (s : State) :
    (regWrite idx v s).i = s.i := by
  unfold regWrite; split <;> rfl
@[simp] theorem regWrite_rnd (idx : BitVec 5) (v : Word) (s : State) :
    (regWrite idx v s).rnd = s.rnd := by
  unfold regWrite; split <;> rfl
@[simp] theorem regWrite_st (idx : BitVec 5) (v : Word) (s : State) :
    (regWrite idx v s).st = s.st := by
  unfold regWrite; split <;> rfl
@[simp] theorem regWrite_events (idx : BitVec 5) (v : Word) (s : State) :
    (regWrite idx v s).events = s.events := by
  unfold regWrite; split <;> rfl
@[simp] theorem regWrite_responses (idx : BitVec 5) (v : Word) (s : State) :
    (regWrite idx v s).responses = s.responses := by
  unfold regWrite; split <;> rfl

@[simp] theorem ignoreWrite_eq (s : State) : ignoreWrite s = s := rfl

end Sys2Proof.Machine
end

