-- ==== Sys2Proof/Laws/Exec.lean ====
section
/-! SUPPORT. Everything a transaction, a micro-step and a step can do, said once: an inductive list
of the transitions, and the lemmas that an answer is one of them. Later proofs cite these and do
not unfold the meanings. -/

namespace Sys2Proof.Machine

/-! ## The shared checks -/

theorem unlessBusy_idle {s : State} {run : State → Result} (h : s.phase = .idle) :
    unlessBusy s run = run s := by
  simp [unlessBusy, h]

theorem unlessBusy_busy {s : State} {run : State → Result} (h : s.phase ≠ .idle) :
    unlessBusy s run = .next (raise .busy s) := by
  simp [unlessBusy, h]

theorem unlessNoKey_valid {s : State} {run : State → Result} (h : s.keyValid = true) :
    unlessNoKey s run = run s := by
  simp [unlessNoKey, h]

theorem unlessNoKey_invalid {s : State} {run : State → Result} (h : s.keyValid = false) :
    unlessNoKey s run = .next (raise .noKey s) := by
  simp [unlessNoKey, h]

/-! ## Host transactions -/

/-- What one host transaction can do to the state (spec/40_host_interface.md R101 to R109). -/
inductive HostEffect (s : State) : State → Prop where
  /-- READ_REG. -/
  | read (v : Word) : HostEffect s (respond v s)
  /-- WRITE_KEY, WRITE_DIN. -/
  | write (idx : BitVec 5) (v : Word) : HostEffect s (regWrite idx v s)
  /-- WRITE_STATUS, WRITE_DOUT, WRITE_RSVD. -/
  | ignored : HostEffect s s
  /-- NOP. -/
  | nop (cmd : BitVec 3) (keylen : BitVec 6) : HostEffect s (storeCtrl cmd keylen s)
  /-- A rejection. -/
  | rejected (e : ErrCode) (cmd : BitVec 3) (keylen : BitVec 6) :
      HostEffect s (raise e (storeCtrl cmd keylen s))
  /-- LOAD_KEY accepted. -/
  | loadKey (cmd : BitVec 3) (keylen : BitVec 6) (idle : s.phase = .idle)
      (size : keylenAccepted keylen = true) :
      HostEffect s (acceptLoadKey keylen (storeCtrl cmd keylen s))
  /-- ENCRYPT accepted. -/
  | encrypt (cmd : BitVec 3) (keylen : BitVec 6) (idle : s.phase = .idle)
      (valid : s.keyValid = true) : HostEffect s (acceptEncrypt (storeCtrl cmd keylen s))
  /-- DECRYPT accepted. -/
  | decrypt (cmd : BitVec 3) (keylen : BitVec 6) (idle : s.phase = .idle)
      (valid : s.keyValid = true) (context : contextOk s = true) :
      HostEffect s (acceptDecrypt (storeCtrl cmd keylen s))
  /-- CLEAR_KEY accepted. -/
  | clearKey (cmd : BitVec 3) (keylen : BitVec 6) (idle : s.phase = .idle) :
      HostEffect s (acceptClearKey (storeCtrl cmd keylen s))

/-- A transaction that answers a next state does one of the things listed. -/
theorem exec_next {ins : Instr} {s t : State} (h : exec ins s = .next t) : HostEffect s t := by
  cases ins with
  | readReg idx => cases h; exact .read _
  | nop keylen => cases h; exact .nop _ _
  | loadKey keylen =>
    simp only [exec, execLoadKey, unlessBusy] at h
    split at h
    · split at h
      · cases h; exact .loadKey _ _ (by assumption) (by assumption)
      · cases h; exact .rejected _ _ _
    · cases h; exact .rejected _ _ _
  | encrypt keylen =>
    simp only [exec, execEncrypt, unlessBusy, unlessNoKey] at h
    split at h
    · split at h
      · cases h; exact .encrypt _ _ (by assumption) (by assumption)
      · cases h; exact .rejected _ _ _
    · cases h; exact .rejected _ _ _
  | decrypt keylen =>
    simp only [exec, execDecrypt, unlessBusy, unlessNoKey] at h
    split at h
    · split at h
      · split at h
        · cases h; exact .decrypt _ _ (by assumption) (by assumption) (by assumption)
        · cases h
      · cases h; exact .rejected _ _ _
    · cases h; exact .rejected _ _ _
  | clearKey keylen =>
    simp only [exec, execClearKey, unlessBusy] at h
    split at h
    · cases h; exact .clearKey _ _ (by assumption)
    · cases h; exact .rejected _ _ _
  | illegalCmd5 keylen => cases h; exact .rejected _ _ _
  | illegalCmd6or7 cmd keylen => cases h; exact .rejected _ _ _
  | writeStatus => cases h; exact .ignored
  | writeRsvd2to3 idx => cases h; exact .ignored
  | writeRsvd4to7 idx => cases h; exact .ignored
  | writeKey idx data => cases h; exact .write _ _
  | writeDin idx data => cases h; exact .write _ _
  | writeDout idx => cases h; exact .ignored
  | writeRsvd24to31 idx => cases h; exact .ignored

/-- No transaction is refused. -/
theorem exec_not_refused (ins : Instr) (s : State) (r : Refusal) : exec ins s ≠ .refused r := by
  intro h
  cases ins <;> simp only [exec, execReadReg, execNop, execLoadKey, execEncrypt, execDecrypt,
    execClearKey, execIllegalCmd5, execIllegalCmd6or7, execWriteStatus, execWriteRsvd2to3,
    execWriteRsvd4to7, execWriteKey, execWriteDin, execWriteDout, execWriteRsvd24to31,
    unlessBusy, unlessNoKey] at h <;> (repeat' split at h) <;> cases h

/-- The only transaction that can fault is a DECRYPT whose KEY_VALID has no key context. -/
theorem exec_fault {ins : Instr} {s : State} {r : Fault} (h : exec ins s = .fault r) :
    s.keyValid = true ∧ contextOk s = false ∧ s.phase = .idle := by
  cases ins <;> simp only [exec, execReadReg, execNop, execLoadKey, execEncrypt, execDecrypt,
    execClearKey, execIllegalCmd5, execIllegalCmd6or7, execWriteStatus, execWriteRsvd2to3,
    execWriteRsvd4to7, execWriteKey, execWriteDin, execWriteDout, execWriteRsvd24to31,
    unlessBusy, unlessNoKey] at h <;> (repeat' split at h) <;> try cases h
  rename_i idle valid context
  exact ⟨by simpa using valid, by simpa [contextOk] using context, by simpa using idle⟩

/-! ## Micro-steps -/

/-- What a turn of the core can do (spec/42_key_schedule.md R162, R163, spec/43_forward_round.md
R185, R186, spec/44_inverse_round.md R205, R206). -/
inductive CoreEffect (s : State) : State → Prop where
  /-- No operation in flight. -/
  | wait (idle : s.phase = .idle) : CoreEffect s s
  /-- EXPAND, not the last step. -/
  | expand (phase : s.phase = .expand) (range : expandInRange s = true)
      (more : s.i.toNat + 1 < 4 * (s.nr.toNat + 1)) :
      CoreEffect s { s with w := expandAt s.w s.nk.toNat s.i.toNat, i := s.i + 1#6 }
  /-- EXPAND, the last step. -/
  | expandLast (phase : s.phase = .expand) (range : expandInRange s = true)
      (last : s.i.toNat + 1 = 4 * (s.nr.toNat + 1)) :
      CoreEffect s { s with
        w := expandAt s.w s.nk.toNat s.i.toNat, keyValid := true, done := true, phase := .idle }
  /-- ENC, not the last step. -/
  | enc (phase : s.phase = .enc) (range : encInRange s = true)
      (more : s.rnd.toNat < s.nr.toNat) :
      CoreEffect s { s with st := fullRound s.w s.rnd.toNat s.st, rnd := s.rnd + 1#4 }
  /-- ENC, the last step. -/
  | encLast (phase : s.phase = .enc) (range : encInRange s = true)
      (last : s.rnd.toNat = s.nr.toNat) :
      CoreEffect s (deliver (finalRound s.w s.nr.toNat s.st) s)
  /-- DEC, not the last step. -/
  | dec (phase : s.phase = .dec) (range : decInRange s = true) (more : 1 ≤ s.rnd.toNat) :
      CoreEffect s { s with st := invFullRound s.w s.rnd.toNat s.st, rnd := s.rnd - 1#4 }
  /-- DEC, the last step. -/
  | decLast (phase : s.phase = .dec) (range : decInRange s = true) (last : s.rnd.toNat = 0) :
      CoreEffect s (deliver (invFinalRound s.w s.st) s)

/-- A turn of the core that answers a next state does one of the things listed. -/
theorem coreStep_next {s t : State} (h : coreStep s = .next t) : CoreEffect s t := by
  unfold coreStep at h
  split at h
  · cases h; exact .wait (by assumption)
  · unfold expandStep at h
    split at h
    · rename_i phase range
      dsimp only at h
      split at h
      · cases h; exact .expand phase range (by assumption)
      · cases h
        refine .expandLast phase range ?_
        simp only [expandInRange, Bool.and_eq_true, decide_eq_true_eq] at range
        omega
    · cases h
  · unfold encStep at h
    split at h
    · rename_i phase range
      split at h
      · cases h; exact .enc phase range (by assumption)
      · cases h
        refine .encLast phase range ?_
        simp only [encInRange, Bool.and_eq_true, decide_eq_true_eq] at range
        omega
    · cases h
  · unfold decStep at h
    split at h
    · rename_i phase range
      split at h
      · cases h; exact .dec phase range (by assumption)
      · cases h; exact .decLast phase range (by omega)
    · cases h

/-- No turn of the core is refused. -/
theorem coreStep_not_refused (s : State) (r : Refusal) : coreStep s ≠ .refused r := by
  intro h
  unfold coreStep expandStep encStep decStep at h
  (repeat' split at h) <;> cases h

/-- The core faults only where the counter is out of its range. -/
theorem coreStep_fault {s : State} {r : Fault} (h : coreStep s = .fault r) :
    (s.phase = .expand ∧ expandInRange s = false) ∨ (s.phase = .enc ∧ encInRange s = false) ∨
      (s.phase = .dec ∧ decInRange s = false) := by
  unfold coreStep expandStep encStep decStep at h
  (repeat' split at h) <;> cases h <;> simp_all

/-! ## Steps -/

/-- What a step can do: the event it takes, and the effect. -/
inductive StepEffect (s : State) : State → Prop where
  /-- No event pending: the core's turn. -/
  | quiet {t : State} (pending : s.events = []) (effect : CoreEffect s t) : StepEffect s t
  /-- A host transaction. -/
  | host {t : State} (ht : HtWord) (rest : List Event) (pending : s.events = .host ht :: rest)
      (run : exec (decodeHt ht) { s with events := rest } = .next t)
      (effect : HostEffect { s with events := rest } t) : StepEffect s t
  /-- A turn of the core. -/
  | core {t : State} (rest : List Event) (pending : s.events = .core :: rest)
      (effect : CoreEffect { s with events := rest } t) : StepEffect s t
  /-- Reset. -/
  | reset (rest : List Event) (pending : s.events = .reset :: rest) :
      StepEffect s (resetBlock { s with events := rest })

/-- A step that answers a next state does one of the things listed. -/
theorem step_next {s t : State} (h : step s = .next t) : StepEffect s t := by
  unfold step at h
  split at h
  · exact .quiet (by assumption) (coreStep_next h)
  · exact .host _ _ (by assumption) h (exec_next h)
  · exact .core _ (by assumption) (coreStep_next h)
  · cases h; exact .reset _ (by assumption)

/-- No step is refused. -/
theorem step_not_refused (s : State) (r : Refusal) : step s ≠ .refused r := by
  unfold step
  split
  · exact coreStep_not_refused _ _
  · exact exec_not_refused _ _ _
  · exact coreStep_not_refused _ _
  · intro h; cases h

end Sys2Proof.Machine
end

