-- ==== Sys2Proof/Laws/PerInstr.lean ====
section
/-! SUPPORT. One lemma per instruction about its place in the opcode table
(spec/30_encoding.md R85). -/

namespace Sys2Proof.Laws

/-! ## Masks, field by field -/

/-- `AND` of built words is field by field. -/
theorem mkHt_and (we we' : BitVec 1) (idx idx' : BitVec 5) (data data' : Word) :
    mkHt we idx data &&& mkHt we' idx' data' =
      mkHt (we &&& we') (idx &&& idx') (data &&& data') := by
  apply BitVec.eq_of_getLsbD_eq
  intro i hi
  simp only [mkHt, BitVec.getLsbD_and, BitVec.getLsbD_append]
  split
  · rfl
  · split <;> rfl

/-- A write to any register but CTRL selects its row by its IDX alone. -/
theorem selects_write {idx : BitVec 5} {data : Word} {row : OpcodeRow} {m p : BitVec 5}
    (mask : row.mask = mkHt 1#1 m 0#32) (pattern : row.pattern = mkHt 1#1 p 0#32)
    (h : idx &&& m = p) : row.selects (mkHt 1#1 idx data) = true := by
  simp [OpcodeRow.selects, mask, pattern, mkHt_and, h]

/-- A write to CTRL selects its row by its CMD alone. -/
theorem selects_command {keylen : BitVec 6} {cmd : BitVec 3} {row : OpcodeRow} {m p : BitVec 3}
    (mask : row.mask = mkHt 1#1 0x1f#5 (mkCw 0#6 m))
    (pattern : row.pattern = mkHt 1#1 0#5 (mkCw 0#6 p)) (h : cmd &&& m = p) :
    row.selects (mkHt 1#1 0#5 (mkCw keylen cmd)) = true := by
  have fields : mkCw keylen cmd &&& mkCw 0#6 m = mkCw 0#6 (cmd &&& m) := by
    apply BitVec.eq_of_getLsbD_eq
    intro i hi
    simp only [mkCw, BitVec.getLsbD_and, BitVec.getLsbD_append]
    (repeat' split) <;> simp
  simp [OpcodeRow.selects, mask, pattern, mkHt_and, fields, h]

/-! ## The family -/

/-- A well-formed instruction's word selects the instruction's own row, and that row is one of the
table's fifteen. -/
def EncodedInItsRow.Statement (ins : Instr) : Prop :=
  ins.row ∈ opcodeRows ∧ (ins.wellFormed = true → ins.row.selects (encode ins) = true)

theorem EncodedInItsRow.readReg (idx : BitVec 5) : Statement (.readReg idx) := by
  refine ⟨by simp [opcodeRows, Instr.row], fun _ => ?_⟩
  rw [OpcodeRow.selects, show (Instr.row (.readReg idx)).mask = mkHt 1#1 0#5 0#32 from rfl]
  simp only [encode, mkHt_and]
  revert idx
  decide

theorem EncodedInItsRow.nop (keylen : BitVec 6) : Statement (.nop keylen) :=
  ⟨by simp [opcodeRows, Instr.row], fun _ => selects_command (m := 7#3) rfl rfl rfl⟩

theorem EncodedInItsRow.loadKey (keylen : BitVec 6) : Statement (.loadKey keylen) :=
  ⟨by simp [opcodeRows, Instr.row], fun _ => selects_command (m := 7#3) rfl rfl rfl⟩

theorem EncodedInItsRow.encrypt (keylen : BitVec 6) : Statement (.encrypt keylen) :=
  ⟨by simp [opcodeRows, Instr.row], fun _ => selects_command (m := 7#3) rfl rfl rfl⟩

theorem EncodedInItsRow.decrypt (keylen : BitVec 6) : Statement (.decrypt keylen) :=
  ⟨by simp [opcodeRows, Instr.row], fun _ => selects_command (m := 7#3) rfl rfl rfl⟩

theorem EncodedInItsRow.clearKey (keylen : BitVec 6) : Statement (.clearKey keylen) :=
  ⟨by simp [opcodeRows, Instr.row], fun _ => selects_command (m := 7#3) rfl rfl rfl⟩

theorem EncodedInItsRow.illegalCmd5 (keylen : BitVec 6) : Statement (.illegalCmd5 keylen) :=
  ⟨by simp [opcodeRows, Instr.row], fun _ => selects_command (m := 7#3) rfl rfl rfl⟩

theorem EncodedInItsRow.illegalCmd6or7 (cmd : BitVec 3) (keylen : BitVec 6) :
    Statement (.illegalCmd6or7 cmd keylen) := by
  refine ⟨by simp [opcodeRows, Instr.row], fun wf => ?_⟩
  exact selects_command (m := 6#3) (p := 6#3) rfl rfl <|
    (by decide : ∀ c : BitVec 3, (c == 6#3 || c == 7#3) = true → c &&& 6#3 = 6#3) cmd wf

theorem EncodedInItsRow.writeStatus : Statement .writeStatus := by
  unfold Statement
  decide

theorem EncodedInItsRow.writeRsvd2to3 (idx : BitVec 5) : Statement (.writeRsvd2to3 idx) :=
  ⟨by simp [opcodeRows, Instr.row], fun wf => selects_write (m := 0x1e#5) rfl rfl <|
    (by decide : ∀ i, idxIn 2 3 i = true → i &&& 0x1e#5 = 2#5) idx wf⟩

theorem EncodedInItsRow.writeRsvd4to7 (idx : BitVec 5) : Statement (.writeRsvd4to7 idx) :=
  ⟨by simp [opcodeRows, Instr.row], fun wf => selects_write (m := 0x1c#5) rfl rfl <|
    (by decide : ∀ i, idxIn 4 7 i = true → i &&& 0x1c#5 = 4#5) idx wf⟩

theorem EncodedInItsRow.writeKey (idx : BitVec 5) (data : Word) :
    Statement (.writeKey idx data) :=
  ⟨by simp [opcodeRows, Instr.row], fun wf => selects_write (m := 0x18#5) rfl rfl <|
    (by decide : ∀ i, idxIn 8 15 i = true → i &&& 0x18#5 = 8#5) idx wf⟩

theorem EncodedInItsRow.writeDin (idx : BitVec 5) (data : Word) :
    Statement (.writeDin idx data) :=
  ⟨by simp [opcodeRows, Instr.row], fun wf => selects_write (m := 0x1c#5) rfl rfl <|
    (by decide : ∀ i, idxIn 16 19 i = true → i &&& 0x1c#5 = 16#5) idx wf⟩

theorem EncodedInItsRow.writeDout (idx : BitVec 5) : Statement (.writeDout idx) :=
  ⟨by simp [opcodeRows, Instr.row], fun wf => selects_write (m := 0x1c#5) rfl rfl <|
    (by decide : ∀ i, idxIn 20 23 i = true → i &&& 0x1c#5 = 20#5) idx wf⟩

theorem EncodedInItsRow.writeRsvd24to31 (idx : BitVec 5) : Statement (.writeRsvd24to31 idx) :=
  ⟨by simp [opcodeRows, Instr.row], fun wf => selects_write (m := 0x18#5) rfl rfl <|
    (by decide : ∀ i, idxIn 24 31 i = true → i &&& 0x18#5 = 24#5) idx wf⟩

end Sys2Proof.Laws
end

