-- ==== Sys2Proof/Laws/Schedule.lean ====
section
/-! SUPPORT. Reading a word of KEY or of the schedule after an update, the schedule step's
dependence on the words below its index, and the ranges of Nk, Nr and the counters as numbers. -/

namespace Sys2Proof.Machine

/-! ## Words of a vector -/

@[simp] theorem getD_replicate {n : Nat} (v : Word) (j : Nat) :
    (Vector.replicate n v).getD j v = v := by
  by_cases h : j < n <;> simp [Vector.getD, h]

theorem getD_setIfInBounds {n : Nat} (w : Vector Word n) (k : Nat) (v : Word) (j : Nat)
    (h : j < n) : (w.setIfInBounds k v).getD j 0 = if j = k then v else w.getD j 0 := by
  simp [Vector.getD, h, Array.getElem_setIfInBounds, eq_comm]

theorem getD_set {n : Nat} (w : Vector Word n) (k : Nat) (v : Word) (hk : k < n) (j : Nat) :
    (w.set k v).getD j 0 = if j = k then v else w.getD j 0 := by
  by_cases h : j < n
  · simp [Vector.getD, h, Array.getElem_set, eq_comm]
  · simp [Vector.getD, h, show j ≠ k by omega]

theorem getD_copyKey (n : Nat) (key : Vector Word 8) (w : Vector Word 60) (j : Nat)
    (h : j < 60) : (copyKey n key w).getD j 0 = if j < n then key.getD j 0 else w.getD j 0 := by
  simp [Vector.getD, copyKey, h]

/-- One schedule step writes one word (spec/42_key_schedule.md R162). -/
theorem getD_expandAt (w : Vector Word 60) (nk i j : Nat) (h : j < 60) :
    (expandAt w nk i).getD j 0 = if j = i then expandWord w nk i else w.getD j 0 :=
  getD_setIfInBounds w i _ j h

/-- A byte packed above three zero bytes is that byte shifted to the top. -/
theorem pack_zeros : ∀ b : Byte, pack b 0 0 0 = b.setWidth 32 <<< 24 := by decide

/-- The round constant word as the shift of the spec (spec/41_tables.md R137). -/
theorem rconWord_eq_shift (k : Nat) : rconWord k = (rcon k).setWidth 32 <<< 24 := pack_zeros _

/-- A schedule step depends on the words below its index only (spec/42_key_schedule.md R164 item
5). -/
theorem expandWord_congr {w v : Vector Word 60} {nk i : Nat} (pos : 0 < nk) (low : nk ≤ i)
    (h : ∀ j, j < i → w.getD j 0 = v.getD j 0) : expandWord w nk i = expandWord v nk i := by
  simp only [expandWord]
  rw [h (i - nk) (by omega), h (i - 1) (by omega)]

/-! ## Ranges -/

/-- The three key contexts as numbers (spec/10_state.md R33). -/
theorem contextOk_iff (s : State) : contextOk s = true ↔
    (s.nk.toNat = 4 ∨ s.nk.toNat = 6 ∨ s.nk.toNat = 8) ∧ s.nr.toNat = s.nk.toNat + 6 := by
  unfold contextOk
  generalize s.nk = a
  generalize s.nr = b
  revert a b
  decide

/-- The range of `i` during EXPAND as numbers (spec/10_state.md R36). -/
theorem expandInRange_iff (s : State) : expandInRange s = true ↔
    contextOk s = true ∧ s.nk.toNat ≤ s.i.toNat ∧ s.i.toNat < 4 * (s.nr.toNat + 1) := by
  simp [expandInRange, and_assoc]

/-- The range of `rnd` during ENC as numbers (spec/10_state.md R36). -/
theorem encInRange_iff (s : State) : encInRange s = true ↔
    contextOk s = true ∧ 1 ≤ s.rnd.toNat ∧ s.rnd.toNat ≤ s.nr.toNat := by
  simp [encInRange, and_assoc]

/-- The range of `rnd` during DEC as numbers (spec/10_state.md R36). -/
theorem decInRange_iff (s : State) : decInRange s = true ↔
    contextOk s = true ∧ s.rnd.toNat < s.nr.toNat := by
  simp [decInRange]

/-- The accepted key lengths as numbers (spec/30_encoding.md R83). -/
theorem keylenAccepted_iff (keylen : BitVec 6) : keylenAccepted keylen = true ↔
    keylen.toNat = 16 ∨ keylen.toNat = 24 ∨ keylen.toNat = 32 := by
  revert keylen
  decide

/-- The next index, where it does not leave its 6 bits (spec/10_state.md R24). -/
theorem toNat_add_one_six {i : BitVec 6} (h : i.toNat < 63) : (i + 1#6).toNat = i.toNat + 1 := by
  rw [BitVec.toNat_add]
  simp
  omega

/-- The next round, where it does not leave its 4 bits (spec/10_state.md R24). -/
theorem toNat_add_one_four {r : BitVec 4} (h : r.toNat < 15) : (r + 1#4).toNat = r.toNat + 1 := by
  rw [BitVec.toNat_add]
  simp
  omega

/-- The round before, where there is one (spec/10_state.md R24). -/
theorem toNat_sub_one_four {r : BitVec 4} (h : 1 ≤ r.toNat) : (r - 1#4).toNat = r.toNat - 1 := by
  revert r
  decide

end Sys2Proof.Machine
end

