-- ==== Sys2Proof/Tests/Slice0.lean ====
section
/-! SUPPORT. Tests of the model against values of spec/, most of them from
spec/95_test_vectors.md, and one witness for the hypotheses of each statement that has any. -/

namespace Sys2Proof.Tests

open Sys2Proof.Machine

/-! ## Small states -/

/-- A schedule whose words from `start` on are `l`, the others zero. -/
def wordsFrom (start : Nat) (l : List Word) : Vector Word 60 :=
  Vector.ofFn fun j => if j.val < start then 0 else l.getD (j.val - start) 0

/-- After reset, with `KEY[0..3]` of the AES-128 key of spec/95_test_vectors.md section 1.1. -/
def keyWritten : State :=
  { State.reset with
    key := Vector.ofFn fun j =>
      [0x00010203#32, 0x04050607#32, 0x08090a0b#32, 0x0c0d0e0f#32].getD j.val 0 }

/-- EXPAND of AES-128 just begun (`LOAD_KEY` 16 accepted). -/
def expanding : State :=
  { State.reset with
    phase := .expand, nk := 4, nr := 10, i := 4,
    w := wordsFrom 0 [0x00010203#32, 0x04050607#32, 0x08090a0b#32, 0x0c0d0e0f#32] }

/-- The last EXPAND micro-step of AES-128 is next: the words that it reads of the schedule in
spec/95_test_vectors.md section 2.1. -/
def expandingLast : State :=
  { expanding with
    i := 43, w := wordsFrom 39 [0xbe2c974e#32, 0x13111d7f#32, 0xe3944a17#32, 0xf307a78b#32] }

/-- Idle with a valid AES-128 key: round keys 0 and 1 of spec/95_test_vectors.md section 2.1. -/
def keyed : State :=
  { State.reset with
    keyValid := true, done := true, nk := 4, nr := 10,
    din := ⟨0x00112233, 0x44556677, 0x8899aabb, 0xccddeeff⟩,
    w := wordsFrom 0
      [0x00010203#32, 0x04050607#32, 0x08090a0b#32, 0x0c0d0e0f#32,
        0xd6aa74fd#32, 0xd2af72fa#32, 0xdaa678f1#32, 0xd6ab76fe#32] }

/-- The same key: round keys 9 and 10. -/
def keyedHigh : State :=
  { keyed with
    din := ⟨0x69c4e0d8, 0x6a7b0430, 0xd8cdb780, 0x70b4c55a⟩,
    w := wordsFrom 36
      [0x549932d1#32, 0xf0855768#32, 0x1093ed9c#32, 0xbe2c974e#32,
        0x13111d7f#32, 0xe3944a17#32, 0xf307a78b#32, 0x4d2b30c5#32] }

/-- ENC with round 1 next (spec/95_test_vectors.md section 2.3). -/
def encrypting : State :=
  { keyed with
    phase := .enc, done := false, rnd := 1,
    st := ⟨0x00102030, 0x40506070, 0x8090a0b0, 0xc0d0e0f0⟩ }

/-- ENC with the last round next (spec/95_test_vectors.md section 2.3). -/
def encryptingLast : State :=
  { keyedHigh with
    phase := .enc, done := false, rnd := 10,
    st := ⟨0xbd6e7c3d, 0xf2b5779e, 0x0b61216e, 0x8b10b689⟩ }

/-- DEC with `rnd = 9` next (spec/95_test_vectors.md section 2.3). -/
def decrypting : State :=
  { keyedHigh with
    phase := .dec, done := false, rnd := 9,
    st := ⟨0x7ad5fda7, 0x89ef4e27, 0x2bca100b, 0x3d9ff59f⟩ }

/-- DEC with the last step next (spec/95_test_vectors.md section 2.3). -/
def decryptingLast : State :=
  { keyed with
    phase := .dec, done := false, rnd := 0,
    st := ⟨0x6353e08c, 0x0960e104, 0xcd70b751, 0xbacad0e7⟩ }

/-- A field of the next state, where there is one. -/
def after {α : Type} (f : State → α) : Result → Option α
  | .next t => some (f t)
  | .fault _ => none
  | .refused _ => none

/-! ## Ill-formed terms are refused, one per check -/

theorem test_wf_illegalCmd : (Instr.illegalCmd6or7 5#3 0#6).wellFormed = false := by decide
theorem test_wf_rsvd2to3 : (Instr.writeRsvd2to3 1#5).wellFormed = false ∧
    (Instr.writeRsvd2to3 4#5).wellFormed = false := by decide
theorem test_wf_rsvd4to7 : (Instr.writeRsvd4to7 3#5).wellFormed = false ∧
    (Instr.writeRsvd4to7 8#5).wellFormed = false := by decide
theorem test_wf_key : (Instr.writeKey 7#5 0).wellFormed = false ∧
    (Instr.writeKey 16#5 0).wellFormed = false := by decide
theorem test_wf_din : (Instr.writeDin 15#5 0).wellFormed = false ∧
    (Instr.writeDin 20#5 0).wellFormed = false := by decide
theorem test_wf_dout : (Instr.writeDout 19#5).wellFormed = false ∧
    (Instr.writeDout 24#5).wellFormed = false := by decide
theorem test_wf_rsvd24to31 : (Instr.writeRsvd24to31 23#5).wellFormed = false := by decide

/-! ## Words written out from R80, R81 and R85: WE, IDX, then DATA (for CTRL: the ignored bits
31..14, KEYLEN, the ignored bits 7..3, CMD) -/

theorem test_decode_readReg :
    decodeHt (0b0#1 ++ 0b10111#5 ++ 0x00000000#32) = .readReg 23#5 := by decide
theorem test_decode_nop :
    decodeHt (0b1#1 ++ 0b00000#5 ++ 0#18 ++ 0b010000#6 ++ 0b00000#5 ++ 0b000#3) = .nop 16#6 := by
  decide
theorem test_decode_loadKey :
    decodeHt (0b1#1 ++ 0b00000#5 ++ 0#18 ++ 0b011000#6 ++ 0b00000#5 ++ 0b001#3) =
      .loadKey 24#6 := by decide
theorem test_decode_encrypt :
    decodeHt (0b1#1 ++ 0b00000#5 ++ 0#18 ++ 0b000000#6 ++ 0b00000#5 ++ 0b010#3) =
      .encrypt 0#6 := by decide
theorem test_decode_decrypt :
    decodeHt (0b1#1 ++ 0b00000#5 ++ 0#18 ++ 0b000001#6 ++ 0b00000#5 ++ 0b011#3) =
      .decrypt 1#6 := by decide
theorem test_decode_clearKey :
    decodeHt (0b1#1 ++ 0b00000#5 ++ 0#18 ++ 0b000000#6 ++ 0b00000#5 ++ 0b100#3) =
      .clearKey 0#6 := by decide
theorem test_decode_illegalCmd5 :
    decodeHt (0b1#1 ++ 0b00000#5 ++ 0#18 ++ 0b000000#6 ++ 0b00000#5 ++ 0b101#3) =
      .illegalCmd5 0#6 := by decide
theorem test_decode_illegalCmd6or7 :
    decodeHt (0b1#1 ++ 0b00000#5 ++ 0#18 ++ 0b000000#6 ++ 0b00000#5 ++ 0b110#3) =
      .illegalCmd6or7 6#3 0#6 := by decide
theorem test_decode_writeStatus :
    decodeHt (0b1#1 ++ 0b00001#5 ++ 0xffffffff#32) = .writeStatus := by decide
theorem test_decode_writeRsvd2to3 :
    decodeHt (0b1#1 ++ 0b00011#5 ++ 0x00000001#32) = .writeRsvd2to3 3#5 := by decide
theorem test_decode_writeRsvd4to7 :
    decodeHt (0b1#1 ++ 0b00111#5 ++ 0x00000001#32) = .writeRsvd4to7 7#5 := by decide
theorem test_decode_writeKey :
    decodeHt (0b1#1 ++ 0b01000#5 ++ 0x2b7e1516#32) = .writeKey 8#5 0x2b7e1516#32 := by decide
theorem test_decode_writeDin :
    decodeHt (0b1#1 ++ 0b10011#5 ++ 0xe0370734#32) = .writeDin 19#5 0xe0370734#32 := by decide
theorem test_decode_writeDout :
    decodeHt (0b1#1 ++ 0b10100#5 ++ 0xdeadbeef#32) = .writeDout 20#5 := by decide
theorem test_decode_writeRsvd24to31 :
    decodeHt (0b1#1 ++ 0b11000#5 ++ 0x00000000#32) = .writeRsvd24to31 24#5 := by decide

/-- `wr CTRL, 0xffffffff` is CMD 7 with KEYLEN 63: the other bits are ignored
(spec/95_test_vectors.md section 2.8). -/
theorem test_decode_ignored_bits : decode 0x20ffffffff = .ok (.illegalCmd6or7 7#3 63#6) := by
  decide

/-- A number of 39 bits is no HT word. -/
theorem test_decode_too_wide : decode 0x4000000000 = .error .widerThan38Bits := by decide

/-- The host program words of spec/95_test_vectors.md section 3, P1 rows 1 to 6 and 11. -/
theorem test_host_program_words :
    htSetkey 0 [0x00010203#32, 0x04050607#32] = [0x2800010203#38, 0x2904050607#38] ∧
    htLoadkey 16 = 0x2000001001#38 ∧ htPoll = 0x0100000000#38 ∧ htEncrypt = 0x2000000002#38 := by
  decide

/-- The host's entry: a placed word is what the next step performs (P1 row 5). -/
theorem test_withFetchWord :
    decodeTableWord 38 0x2000001001 = some (.loadKey 16#6) ∧
    after (·.phase) (step (State.reset.withFetchWord 38 0x2000001001)) = some .expand := by decide

/-! ## Transactions -/

/-- STATUS with an AES-128 key (spec/95_test_vectors.md section 1.3). -/
theorem test_readReg_status :
    after (·.responses) (exec (.readReg 1#5) keyed) = some [0x002c0a06#32] := by decide
/-- KEY0 reads zero (spec/95_test_vectors.md section 2.8). -/
theorem test_readReg_key :
    after (·.responses) (exec (.readReg 8#5) keyWritten) = some [0x00000000#32] := by decide
/-- A NOP leaves ERR 1 (spec/95_test_vectors.md section 2.8). -/
theorem test_nop_keeps_err :
    after (fun t => (t.err, ctrlWord t)) (exec (.nop 16#6) { State.reset with err := 1 }) =
      some (1#3, 0x00001000#32) := by decide
/-- P1 row 5. -/
theorem test_loadKey_accepted :
    after (fun t => (t.nk, t.nr, t.i, t.w.getD 3 0, statusWord t)) (exec (.loadKey 16#6) keyWritten)
      = some (4#4, 10#4, 4#6, 0x0c0d0e0f#32, 0x00000001#32) := by decide
/-- The old key stays valid (P4 row 21 with the AES-128 key). -/
theorem test_loadKey_bad_size :
    after statusWord (exec (.loadKey 15#6) keyed) = some 0x002c0a16#32 := by decide
/-- P1 row 11. -/
theorem test_encrypt_accepted :
    after (fun t => (t.st, t.rnd, statusWord t)) (exec (.encrypt 0#6) keyed) =
      some (⟨0x00102030, 0x40506070, 0x8090a0b0, 0xc0d0e0f0⟩, 1#4, 0x002c0a03#32) := by decide
/-- P3 row 2. -/
theorem test_encrypt_no_key :
    after statusWord (exec (.encrypt 0#6) State.reset) = some 0x00000030#32 := by decide
/-- P2 row 9. -/
theorem test_decrypt_accepted :
    after (fun t => (t.st, t.rnd, statusWord t)) (exec (.decrypt 0#6) keyedHigh) =
      some (⟨0x7ad5fda7, 0x89ef4e27, 0x2bca100b, 0x3d9ff59f⟩, 9#4, 0x002c0a03#32) := by decide
/-- BUSY comes before every other check but ILLEGAL_CMD (spec/95_test_vectors.md section 2.8). -/
theorem test_decrypt_busy :
    after statusWord (exec (.decrypt 0#6) expanding) = some 0x00000041#32 := by decide
/-- P4 row 25 with the AES-128 key. -/
theorem test_clearKey_accepted :
    after (fun t => (t.w, t.key, statusWord t))
      (exec (.clearKey 0#6) { keyed with key := keyWritten.key }) =
      some (Vector.replicate 60 0, Vector.replicate 8 0, 0x00000004#32) := by decide
/-- Illegal during an operation is ILLEGAL_CMD, not BUSY (spec/95_test_vectors.md section 2.8). -/
theorem test_illegalCmd5 :
    after statusWord (exec (.illegalCmd5 0#6) expanding) = some 0x00000051#32 := by decide
/-- P3 rows 13 and 14. -/
theorem test_illegalCmd7 :
    after (fun t => (t.err, ctrlWord t)) (exec (.illegalCmd6or7 7#3 24#6) State.reset) =
      some (5#3, 0x00001807#32) := by decide
/-- P3 rows 16, 17 and 19: ignored writes. -/
theorem test_ignored_writes :
    exec .writeStatus keyed = .next keyed ∧ exec (.writeDout 20#5) keyed = .next keyed ∧
    exec (.writeRsvd2to3 3#5) keyed = .next keyed ∧
    exec (.writeRsvd4to7 5#5) keyed = .next keyed ∧
    exec (.writeRsvd24to31 31#5) keyed = .next keyed := ⟨rfl, rfl, rfl, rfl, rfl⟩
/-- P4 row 8. -/
theorem test_writeKey :
    after (fun t => (t.key.getD 7 0, t.key.getD 6 0, t.din))
      (exec (.writeKey 15#5 0x1c1d1e1f#32) State.reset) =
      some (0x1c1d1e1f#32, 0#32, zeroBlock) := by decide
/-- P1 row 10. -/
theorem test_writeDin :
    after (·.din) (exec (.writeDin 19#5 0xccddeeff#32) State.reset) =
      some ⟨0, 0, 0, 0xccddeeff⟩ := by decide

/-! ## Micro-steps and reset -/

/-- `i = 4`, Nk = 4 (spec/95_test_vectors.md section 2.2). -/
theorem test_expand_rcon :
    after (fun t => (t.w.getD 4 0, t.i)) (coreStep expanding) = some (0xd6aa74fd#32, 5#6) := by
  decide
/-- `i = 12`, Nk = 8: SubWord only (spec/95_test_vectors.md section 2.2). -/
theorem test_expand_subword_only :
    after (·.w.getD 12 0) (coreStep
      { expanding with
        nk := 8, nr := 14, i := 12,
        w := wordsFrom 4 [0x10111213#32, 0, 0, 0, 0, 0, 0, 0xa572c09c#32] }) =
      some 0x1651a8cd#32 := by decide
/-- `i = 10`, Nk = 6: plain (spec/95_test_vectors.md section 2.2). -/
theorem test_expand_plain_192 :
    after (·.w.getD 10 0) (coreStep
      { expanding with
        nk := 6, nr := 12, i := 10, w := wordsFrom 4 [0x10111213#32, 0, 0, 0, 0, 0x5847f0fa#32] }) =
      some 0x4856e2e9#32 := by decide
/-- `i = 43`, Nk = 4: the last step (spec/95_test_vectors.md sections 1.3, 2.2). -/
theorem test_expand_last :
    after (fun t => (t.w.getD 43 0, statusWord t)) (coreStep expandingLast) =
      some (0x4d2b30c5#32, 0x002c0a06#32) := by decide
/-- Round 1 (spec/95_test_vectors.md section 2.3). -/
theorem test_enc_round :
    after (fun t => (t.st, t.rnd)) (coreStep encrypting) =
      some (⟨0x89d810e8, 0x855ace68, 0x2d1843d8, 0xcb128fe4⟩, 2#4) := by decide
/-- The last round, without MixColumns: the AES-128 known answer
(spec/95_test_vectors.md section 1.1). -/
theorem test_enc_last :
    after (fun t => (t.dout, statusWord t)) (coreStep encryptingLast) =
      some (⟨0x69c4e0d8, 0x6a7b0430, 0xd8cdb780, 0x70b4c55a⟩, 0x002c0a06#32) := by decide
/-- `rnd = 9` (spec/95_test_vectors.md section 2.3). -/
theorem test_dec_round :
    after (fun t => (t.st, t.rnd)) (coreStep decrypting) =
      some (⟨0x54d990a1, 0x6ba09ab5, 0x96bbf40e, 0xa111702f⟩, 8#4) := by decide
/-- The last step gives the plaintext back (spec/95_test_vectors.md section 2.3). -/
theorem test_dec_last :
    after (fun t => (t.dout, statusWord t)) (coreStep decryptingLast) =
      some (⟨0x00112233, 0x44556677, 0x8899aabb, 0xccddeeff⟩, 0x002c0a06#32) := by decide
/-- Reset during an operation (spec/95_test_vectors.md section 2.8). -/
theorem test_reset_event :
    after (fun t => (t.phase, statusWord t, t.dout))
      (step { encryptingLast with dout := keyed.din, events := [.reset] }) =
      some (.idle, 0x00000000#32, zeroBlock) := by decide

/-! ## Arithmetic and tables -/

/-- The examples of spec/41_tables.md R131. -/
theorem test_gmul : gmul 0x57 0x83 = 0xc1 ∧ gmul 0x57 0x13 = 0xfe ∧ xtime 0xae = 0x47 := by decide
/-- RotWord and SubWord (spec/95_test_vectors.md section 2.5). -/
theorem test_words : rotWord 0x09cf4f3c = 0xcf4f3c09 ∧ subWord 0xcf4f3c09 = 0x8a84eb01 := by decide
/-- T0 and InvT0 (spec/95_test_vectors.md section 2.5). -/
theorem test_tTables : t0 0x00 = 0xc66363a5 ∧ invT0 0x01 = 0x7e416553 := by decide
/-- One column of MixColumns and InvMixColumns (spec/95_test_vectors.md section 2.6). -/
theorem test_mixColumn :
    mixColumn 0xdb135345 = 0x8e4da1bc ∧ invMixColumn 0x2d26314c = 0xa05050d6 := by decide
/-- ShiftRows and InvShiftRows (spec/95_test_vectors.md section 2.6). -/
theorem test_shiftRows :
    shiftRows ⟨0x00010203, 0x04050607, 0x08090a0b, 0x0c0d0e0f⟩ =
      ⟨0x00050a0f, 0x04090e03, 0x080d0207, 0x0c01060b⟩ ∧
    invShiftRows ⟨0x00010203, 0x04050607, 0x08090a0b, 0x0c0d0e0f⟩ =
      ⟨0x000d0a07, 0x04010e0b, 0x0805020f, 0x0c090603⟩ := by decide

/-! ## Witnesses: for each statement with hypotheses, values that meet them all -/

theorem witness_DecodeOfEncode :
    (Instr.illegalCmd6or7 7#3 63#6).wellFormed = true ∧ (Instr.writeKey 15#5 1).wellFormed = true ∧
    (Instr.writeDin 16#5 1).wellFormed = true ∧ (Instr.writeRsvd24to31 31#5).wellFormed = true ∧
    (Instr.writeDout 23#5).wellFormed = true ∧ (Instr.writeRsvd2to3 2#5).wellFormed = true ∧
    (Instr.writeRsvd4to7 4#5).wellFormed = true := by decide

theorem witness_StepExecutes :
    ∃ (s : State) (ht : HtWord) (rest : List Event) (ins : Instr),
      s.events = .host ht :: rest ∧ decode ht.toNat = .ok ins :=
  ⟨{ State.reset with events := [.host 0x2000001001#38] }, 0x2000001001#38, [], .loadKey 16#6,
    rfl, by decide⟩

theorem witness_StepGivesTheCore :
    ({ keyed with events := [.core] } : State).phase = .idle ∧ expanding.phase = .expand ∧
    expanding.events = [] ∧ encrypting.phase = .enc ∧ encrypting.events = [] ∧
    decrypting.phase = .dec ∧ decrypting.events = [] := by decide

theorem witness_ResetAbandons :
    ({ encrypting with events := [.reset, .core] } : State).events = .reset :: [.core] := rfl

theorem witness_ReadReg :
    (0#5).toNat = 0 ∧ (1#5).toNat = 1 ∧ 2 ≤ (2#5).toNat ∧ (15#5).toNat ≤ 15 ∧
    (16#5).toNat = 16 + (0 : Fin 4).val ∧ (19#5).toNat = 16 + (3 : Fin 4).val ∧
    (20#5).toNat = 20 + (0 : Fin 4).val ∧ (23#5).toNat = 20 + (3 : Fin 4).val ∧
    24 ≤ (24#5).toNat := by decide

theorem witness_HoldingRegisterWrites :
    (8 ≤ (8#5).toNat ∧ (8#5).toNat ≤ 15) ∧ (8 ≤ (15#5).toNat ∧ (15#5).toNat ≤ 15) ∧
    (16 ≤ (16#5).toNat ∧ (16#5).toNat ≤ 19) ∧ (16 ≤ (19#5).toNat ∧ (19#5).toNat ≤ 19) := by decide

theorem witness_NonCtrlWriteWord :
    (0x2f1c1d1e1f#38).getLsbD 37 = true ∧ (0x2f1c1d1e1f#38).extractLsb' 32 5 ≠ 0#5 ∧
    (0x21ffffffff#38).getLsbD 37 = true ∧ (0x21ffffffff#38).extractLsb' 32 5 ≠ 0#5 := by decide

theorem witness_WrittenWords : 0 < 8 ∧ 7 < 8 ∧ 0 < 4 ∧ 3 < 4 := by decide

/-- Busy, then idle without a key, then a micro-step that answers. -/
theorem witness_BusyAndNoKey :
    expanding.phase ≠ .idle ∧ (State.reset.phase = .idle ∧ State.reset.keyValid = false) ∧
    ∃ t, coreStep encrypting = .next t := ⟨by decide, by decide, _, rfl⟩

theorem witness_InvalidKeySize :
    State.reset.phase = .idle ∧ (15#6).toNat ≠ 16 ∧ (15#6).toNat ≠ 24 ∧ (15#6).toNat ≠ 32 := by
  decide

theorem witness_LoadKeyAcceptance :
    keyWritten.phase = .idle ∧ (16#6).toNat = 16 ∧ (24#6).toNat = 24 ∧ (32#6).toNat = 32 := by
  decide

theorem witness_ClearKey : keyed.phase = .idle ∧ expanding.phase ≠ .idle := by decide

theorem witness_EncryptDecryptAcceptance :
    keyed.phase = .idle ∧ keyed.keyValid = true ∧ contextOk keyed = true := by decide

/-- A rejected and an accepted command word, and a NOP. -/
theorem witness_CommandWrite :
    (keyed.keyValid = true → contextOk keyed = true) ∧
    (0x2000000f01#38).extractLsb' 32 6 = 0x20#6 ∧ (0x2000000003#38).extractLsb' 32 6 = 0x20#6 ∧
    (0x2000001000#38).extractLsb' 0 3 = 0#3 := by decide

theorem witness_AssertionsFault :
    (({ State.reset with phase := .expand } : State).phase = .expand ∧
      expandInRange { State.reset with phase := .expand } = false) ∧
    (({ State.reset with phase := .enc } : State).phase = .enc ∧
      encInRange { State.reset with phase := .enc } = false) ∧
    (({ State.reset with phase := .dec } : State).phase = .dec ∧
      decInRange { State.reset with phase := .dec } = false) ∧
    (State.reset.phase = .idle ∧ ({ State.reset with keyValid := true } : State).keyValid = true ∧
      contextOk { State.reset with keyValid := true } = false) := by decide

theorem witness_ExpandStep :
    expanding.phase = .expand ∧ expandInRange expanding = true ∧
    expanding.i.toNat < 4 * (expanding.nr.toNat + 1) - 1 := by decide

theorem witness_LastExpandStep :
    expandingLast.phase = .expand ∧ expandInRange expandingLast = true ∧
    expandingLast.i.toNat = 4 * (expandingLast.nr.toNat + 1) - 1 := by decide

/-- The least and the greatest index of each key size, and a word without a round constant. -/
theorem witness_RoundConstantIndex :
    expanding.phase = .expand ∧
    (expandInRange expanding = true ∧ expanding.i.toNat % expanding.nk.toNat = 0) ∧
    (expandInRange { expanding with i := 40 } = true ∧ (40#6).toNat % (4#4).toNat = 0) ∧
    (expandInRange { expanding with nk := 6, nr := 12, i := 48 } = true ∧
      (48#6).toNat % (6#4).toNat = 0) ∧
    (expandInRange { expanding with nk := 8, nr := 14, i := 56 } = true ∧
      (56#6).toNat % (8#4).toNat = 0) ∧
    (expandInRange { expanding with nk := 8, nr := 14, i := 12 } = true ∧
      (12#6).toNat % (8#4).toNat ≠ 0) := by decide

theorem witness_EncStep :
    encrypting.phase = .enc ∧ encInRange encrypting = true ∧
    encrypting.rnd.toNat < encrypting.nr.toNat := by decide

theorem witness_LastEncStep :
    encryptingLast.phase = .enc ∧ encInRange encryptingLast = true ∧
    encryptingLast.rnd.toNat = encryptingLast.nr.toNat := by decide

theorem witness_DecStep :
    decrypting.phase = .dec ∧ decInRange decrypting = true ∧ 1 ≤ decrypting.rnd.toNat := by decide

theorem witness_LastDecStep :
    decryptingLast.phase = .dec ∧ decInRange decryptingLast = true ∧
    decryptingLast.rnd.toNat = 0 := by decide

/-- The state after LOAD_KEY 16 was accepted meets the invariant. -/
theorem expanding_inv : BlockInv expanding where
  errProduced := by decide
  busyNotDone := by decide
  expanding _ := by
    refine ⟨by decide, by decide, fun j low high => absurd high ?_⟩
    have bounds : expanding.nk.toNat = 4 ∧ expanding.i.toNat = 4 := by decide
    omega
  encrypting h := absurd h (by decide)
  decrypting h := absurd h (by decide)
  keyContext h := absurd h (by decide)

theorem witness_InvariantKept : ∃ s t : State, BlockInv s ∧ step s = .next t :=
  ⟨expanding, _, expanding_inv, rfl⟩

theorem witness_ScheduleIsFixed :
    ∃ s t : State, (s.phase = .expand → s.keyValid = false) ∧ step s = .next t ∧
      s.keyValid = true ∧ t.keyValid = true :=
  ⟨encrypting, _, by decide, rfl, by decide, by decide⟩

theorem witness_OnlyACompletedBlock :
    ∃ s t : State, step s = .next t ∧ t.dout ≠ s.dout :=
  ⟨encryptingLast, _, rfl, by decide⟩

/-- An accepted command; a read; a turn of the core; a reset. -/
theorem witness_ErrIsTheLast :
    (∃ s t, step s = .next t ∧ nextTransaction s = some 0x2000000002#38 ∧
      (0x2000000002#38).extractLsb' 32 6 = 0x20#6 ∧ (0x2000000002#38).extractLsb' 0 3 ≠ 0#3) ∧
    (∃ s t, step s = .next t ∧ nextTransaction s = some 0x0100000000#38 ∧
      (0x0100000000#38).extractLsb' 32 6 ≠ 0x20#6) ∧
    (∃ s t, step s = .next t ∧ nextIsCore s) ∧ (∃ s t, step s = .next t ∧ nextIsReset s) :=
  ⟨⟨{ keyed with events := [.host 0x2000000002#38] }, _, rfl, rfl, by decide, by decide⟩,
    ⟨{ keyed with events := [.host 0x0100000000#38] }, _, rfl, rfl, by decide⟩,
    ⟨encrypting, _, rfl, .inl rfl⟩,
    ⟨{ keyed with events := [.reset] }, _, rfl, [], rfl⟩⟩

theorem witness_OnlyWriteKey :
    ∃ s t : State, step s = .next t ∧ t.key.getD 7 0 ≠ s.key.getD 7 0 :=
  ⟨{ State.reset with events := [.host 0x2f1c1d1e1f#38] }, _, rfl, by decide⟩

theorem witness_OnlyLoadKey :
    ∃ s t : State, step s = .next t ∧ (t.nk ≠ s.nk ∨ t.nr ≠ s.nr) :=
  ⟨{ State.reset with events := [.host 0x2000001001#38] }, _, rfl, .inl (by decide)⟩

theorem witness_OnlyAnAcceptedCommand :
    ∃ s t : State, step s = .next t ∧ s.phase = .idle ∧ t.phase ≠ .idle :=
  ⟨{ keyed with events := [.host 0x2000000003#38] }, _, rfl, by decide, by decide⟩

/-- After EXPAND, and after ENC. -/
theorem witness_Completion :
    (∃ s t : State, step s = .next t ∧ s.phase = .expand ∧ s.phase ≠ .idle ∧ t.phase = .idle) ∧
    (∃ s t : State, step s = .next t ∧ s.phase ≠ .expand ∧ s.phase ≠ .idle ∧ t.phase = .idle) :=
  ⟨⟨expandingLast, _, rfl, by decide, by decide, by decide⟩,
    ⟨encryptingLast, _, rfl, by decide, by decide, by decide⟩⟩

theorem witness_SboxIsTheAffineInverse : (0x53#8 : Byte) ≠ 0 := by decide

theorem witness_Rcon : (1 ≤ 1 ∧ 1 ≤ 29) ∧ (1 ≤ 29 ∧ 29 ≤ 29) := by decide

theorem witness_DecryptUndoesEncrypt : 1 ≤ 1 ∧ 1 ≤ 14 := by decide

/-- Thirty-nine turns of the core and a poll before the last turn, AES-128. -/
theorem witness_LoadKeyEnds :
    let es : List Event := .host htPoll :: List.replicate 39 .core
    let s := { keyWritten with events := Event.host (encode (.loadKey 16#6)) :: es ++ [Event.core] }
    s.phase = .idle ∧ (16#6).toNat = 16 ∧
    s.events = .host (encode (.loadKey 16#6)) :: es ++ [.core] ∧ NoReset es ∧
    coreTurns es + 1 = 4 * ((16#6).toNat / 4 + 7) - (16#6).toNat / 4 := by
  refine ⟨rfl, rfl, rfl, ?_, by decide⟩
  unfold NoReset
  decide

/-- Nine turns of the core and a poll before the last turn, AES-128. -/
theorem witness_EncryptDecryptEnd :
    let es : List Event := .host htPoll :: List.replicate 9 .core
    let s := { keyed with events := Event.host (encode (.encrypt 0#6)) :: es ++ [Event.core] }
    let s' := { keyed with events := Event.host (encode (.decrypt 0#6)) :: es ++ [Event.core] }
    s.phase = .idle ∧ s.keyValid = true ∧ contextOk s = true ∧
    s.events = .host (encode (.encrypt 0#6)) :: es ++ [.core] ∧
    s'.events = .host (encode (.decrypt 0#6)) :: es ++ [.core] ∧ NoReset es ∧
    coreTurns es + 1 = s.nr.toNat := by
  refine ⟨rfl, rfl, by decide, rfl, rfl, ?_, by decide⟩
  unfold NoReset
  decide

theorem witness_OperationEnds :
    BlockInv expanding ∧ expanding.events = [] ∧ 39 < stepsLeft expanding :=
  ⟨expanding_inv, rfl, by decide⟩

/-- A micro-step that answers, and the indices of the readings that commute. -/
theorem witness_Commutes :
    (∃ s1, coreStep encrypting = .next s1) ∧
    ((0#5).toNat ≠ 1 ∧ ¬ (20 ≤ (0#5).toNat ∧ (0#5).toNat ≤ 23)) ∧
    ((19#5).toNat ≠ 1 ∧ ¬ (20 ≤ (19#5).toNat ∧ (19#5).toNat ≤ 23)) ∧
    ((24#5).toNat ≠ 1 ∧ ¬ (20 ≤ (24#5).toNat ∧ (24#5).toNat ≤ 23)) :=
  ⟨⟨_, rfl⟩, by decide, by decide, by decide⟩

/-- States that differ in KEY only: before a round, and before the last one. -/
theorem witness_Secrets :
    (∃ s t s1, SameButSecrets s t ∧ s ≠ t ∧ step s = .next s1 ∧ ¬ nextDelivers s) ∧
    (∃ s t s1, SameButSecrets s t ∧ s ≠ t ∧ step s = .next s1 ∧ nextDelivers s) := by
  refine ⟨⟨encrypting, { encrypting with key := keyWritten.key }, _, rfl, by decide, rfl, ?_⟩,
    ⟨encryptingLast, { encryptingLast with key := keyWritten.key }, _, rfl, by decide, rfl, ?_⟩⟩
  · rintro ⟨-, ⟨-, last⟩ | ⟨phase, -⟩⟩
    · exact absurd last (by decide)
    · exact absurd phase (by decide)
  · exact ⟨.inl rfl, .inl ⟨rfl, by decide⟩⟩

end Sys2Proof.Tests
end

section
/-! PROOFS. The opcode table and the decoder agree (spec/30_encoding.md R85): the rows exclude each
other, every word selects the row of the instruction it decodes to, and so the word selects a row
exactly when it decodes to that row's instruction. -/

namespace Sys2Proof.Laws

/-! ## The rows exclude each other -/

/-- Two rows of the table differ in a bit that both test. -/
theorem opcodeRows_differ_in_a_tested_bit :
    ∀ r ∈ opcodeRows, ∀ r' ∈ opcodeRows,
      r.pattern &&& r'.mask = r'.pattern &&& r.mask → r = r' := by
  decide

theorem row_unique {r r' : OpcodeRow} {x : HtWord} (mem : r ∈ opcodeRows) (mem' : r' ∈ opcodeRows)
    (sel : r.selects x = true) (sel' : r'.selects x = true) : r = r' := by
  simp only [OpcodeRow.selects, beq_iff_eq] at sel sel'
  refine opcodeRows_differ_in_a_tested_bit r mem r' mem' ?_
  rw [← sel, ← sel', BitVec.and_assoc, BitVec.and_assoc, BitVec.and_comm r.mask]

/-! ## A word selects the row of what it decodes to -/

/-- The fifteen rows' instructions in the table's order, with the operands that the word `x` has at
the rows' bits. -/
def instrsAt (x : HtWord) : List Instr :=
  let idx := htIdx x
  let keylen := x.extractLsb' 8 6
  [.readReg idx, .nop keylen, .loadKey keylen, .encrypt keylen, .decrypt keylen, .clearKey keylen,
    .illegalCmd5 keylen, .illegalCmd6or7 (x.extractLsb' 0 3) keylen, .writeStatus,
    .writeRsvd2to3 idx, .writeRsvd4to7 idx, .writeKey idx (htData x), .writeDin idx (htData x),
    .writeDout idx, .writeRsvd24to31 idx]

theorem map_row_instrsAt (x : HtWord) : (instrsAt x).map Instr.row = opcodeRows := rfl

/-- The instruction is a row's, with the operands of `x`, and `x` selects that row. -/
def InItsRow (x : HtWord) (ins : Instr) : Prop := ins ∈ instrsAt x ∧ ins.row.selects x = true

theorem readReg_inItsRow {x : HtWord} (we : htWe x = 0#1) : InItsRow x (.readReg (htIdx x)) := by
  refine ⟨by simp [instrsAt], ?_⟩
  rw [OpcodeRow.selects, ← mkHt_fields x, we,
    show (Instr.row (.readReg _)).mask = mkHt 1#1 0#5 0#32 from rfl,
    show (Instr.row (.readReg _)).pattern = mkHt 0#1 0#5 0#32 from rfl]
  simp [mkHt_and]

/-- A write to any register but CTRL: its IDX alone decides. -/
theorem write_inItsRow {x : HtWord} {ins : Instr} {m p : BitVec 5} (we : htWe x = 1#1)
    (mem : ins ∈ instrsAt x) (mask : ins.row.mask = mkHt 1#1 m 0#32)
    (pattern : ins.row.pattern = mkHt 1#1 p 0#32) (idx : htIdx x &&& m = p) : InItsRow x ins := by
  refine ⟨mem, ?_⟩
  rw [← mkHt_fields x, we]
  exact selects_write mask pattern idx

/-- The command rows test no bit of a command word but CMD. -/
theorem and_mkCw_cmd (data : Word) (m : BitVec 3) :
    data &&& mkCw 0#6 m = mkCw 0#6 (cwCmd data &&& m) := by
  apply BitVec.eq_of_getLsbD_eq
  intro i hi
  simp only [mkCw, cwCmd, BitVec.getLsbD_and, BitVec.getLsbD_append, BitVec.getLsbD_extractLsb']
  split <;> simp [*]

/-- A write to CTRL: its CMD alone decides. -/
theorem command_inItsRow {x : HtWord} {ins : Instr} {m p : BitVec 3} (we : htWe x = 1#1)
    (idx : htIdx x = 0#5) (mem : ins ∈ instrsAt x)
    (mask : ins.row.mask = mkHt 1#1 0x1f#5 (mkCw 0#6 m))
    (pattern : ins.row.pattern = mkHt 1#1 0#5 (mkCw 0#6 p))
    (cmd : cwCmd (htData x) &&& m = p) : InItsRow x ins := by
  refine ⟨mem, ?_⟩
  rw [← mkHt_fields x, OpcodeRow.selects, mask, pattern, mkHt_and, and_mkCw_cmd, we, idx, cmd]
  simp

theorem decodeCommand_inItsRow {x : HtWord} (we : htWe x = 1#1) (idx : htIdx x = 0#5) :
    InItsRow x (decodeCommand (htData x)) := by
  unfold decodeCommand
  rw [cwKeylen_htData]
  dsimp only
  split_ifs with c0 c1 c2 c3 c4 c5
  · exact command_inItsRow (m := 7#3) we idx (by simp [instrsAt]) rfl rfl (by rw [c0])
  · exact command_inItsRow (m := 7#3) we idx (by simp [instrsAt]) rfl rfl (by rw [c1])
  · exact command_inItsRow (m := 7#3) we idx (by simp [instrsAt]) rfl rfl (by rw [c2])
  · exact command_inItsRow (m := 7#3) we idx (by simp [instrsAt]) rfl rfl (by rw [c3])
  · exact command_inItsRow (m := 7#3) we idx (by simp [instrsAt]) rfl rfl (by rw [c4])
  · exact command_inItsRow (m := 7#3) we idx (by simp [instrsAt]) rfl rfl (by rw [c5])
  · have cmd : ∀ c : BitVec 3, c = 0#3 ∨ c = 1#3 ∨ c = 2#3 ∨ c = 3#3 ∨ c = 4#3 ∨ c = 5#3 ∨
        c &&& 6#3 = 6#3 := by decide
    exact command_inItsRow (m := 6#3) we idx (by simp [instrsAt, cwCmd_htData]) rfl rfl
      (by simpa [c0, c1, c2, c3, c4, c5] using cmd (cwCmd (htData x)))

theorem decodeWrite_inItsRow {x : HtWord} (we : htWe x = 1#1) :
    InItsRow x (decodeWrite (htIdx x) (htData x)) := by
  unfold decodeWrite
  dsimp only
  split_ifs with i0 i1 i3 i7 i15 i19 i23
  · exact decodeCommand_inItsRow we (BitVec.eq_of_toNat_eq i0)
  · exact write_inItsRow (m := 0x1f#5) we (by simp [instrsAt]) rfl rfl <|
      (by decide : ∀ i : BitVec 5, i.toNat = 1 → i &&& 0x1f#5 = 1#5) _ i1
  · exact write_inItsRow (m := 0x1e#5) we (by simp [instrsAt]) rfl rfl <|
      (by decide : ∀ i : BitVec 5, i.toNat ≠ 0 → i.toNat ≠ 1 → i.toNat ≤ 3 → i &&& 0x1e#5 = 2#5)
        _ i0 i1 i3
  · exact write_inItsRow (m := 0x1c#5) we (by simp [instrsAt]) rfl rfl <|
      (by decide : ∀ i : BitVec 5, ¬ i.toNat ≤ 3 → i.toNat ≤ 7 → i &&& 0x1c#5 = 4#5) _ i3 i7
  · exact write_inItsRow (m := 0x18#5) we (by simp [instrsAt]) rfl rfl <|
      (by decide : ∀ i : BitVec 5, ¬ i.toNat ≤ 7 → i.toNat ≤ 15 → i &&& 0x18#5 = 8#5) _ i7 i15
  · exact write_inItsRow (m := 0x1c#5) we (by simp [instrsAt]) rfl rfl <|
      (by decide : ∀ i : BitVec 5, ¬ i.toNat ≤ 15 → i.toNat ≤ 19 → i &&& 0x1c#5 = 16#5) _ i15 i19
  · exact write_inItsRow (m := 0x1c#5) we (by simp [instrsAt]) rfl rfl <|
      (by decide : ∀ i : BitVec 5, ¬ i.toNat ≤ 19 → i.toNat ≤ 23 → i &&& 0x1c#5 = 20#5) _ i19 i23
  · exact write_inItsRow (m := 0x18#5) we (by simp [instrsAt]) rfl rfl <|
      (by decide : ∀ i : BitVec 5, ¬ i.toNat ≤ 23 → i &&& 0x18#5 = 24#5) _ i23

theorem decodeHt_inItsRow (x : HtWord) : InItsRow x (decodeHt x) := by
  unfold decodeHt
  split_ifs with we
  · exact readReg_inItsRow we
  · exact decodeWrite_inItsRow (((BitVec.eq_zero_or_eq_one _).resolve_left we))

/-! ## The row a word selects and the instruction it decodes to -/

theorem row_mem_of_mem_instrsAt {x : HtWord} {ins : Instr} (mem : ins ∈ instrsAt x) :
    ins.row ∈ opcodeRows :=
  map_row_instrsAt x ▸ List.mem_map_of_mem mem

/-- At one word, an instruction is known by its row. -/
theorem instrsAt_eq_of_row_eq {x : HtWord} {ins ins' : Instr} (mem : ins ∈ instrsAt x)
    (mem' : ins' ∈ instrsAt x) (row : ins.row = ins'.row) : ins = ins' :=
  List.inj_on_of_nodup_map (map_row_instrsAt x ▸ (by decide : opcodeRows.Nodup)) mem mem' row

theorem selects_iff_decodeHt {x : HtWord} {ins : Instr} (mem : ins ∈ instrsAt x) :
    ins.row.selects x = true ↔ decodeHt x = ins := by
  obtain ⟨decoded, selected⟩ := decodeHt_inItsRow x
  constructor
  · intro sel
    exact instrsAt_eq_of_row_eq decoded mem <|
      row_unique (row_mem_of_mem_instrsAt decoded) (row_mem_of_mem_instrsAt mem) selected sel
  · rintro rfl
    exact selected

theorem exactly_one_row_selects (x : HtWord) : (opcodeRows.filter (·.selects x)).length = 1 := by
  obtain ⟨decoded, selected⟩ := decodeHt_inItsRow x
  have mem := row_mem_of_mem_instrsAt decoded
  have selects_iff : ∀ r ∈ opcodeRows, r.selects x = (r == (decodeHt x).row) := by
    intro r memR
    rw [Bool.eq_iff_iff, beq_iff_eq]
    exact ⟨fun sel => row_unique memR mem sel selected, fun eq => eq ▸ selected⟩
  rw [List.filter_congr selects_iff, ← List.countP_eq_length_filter]
  exact List.count_eq_one_of_mem (by decide) mem

/-- Settles O2: each row's `x AND mask = match` is `OpcodeRow.selects` of an instruction of
`instrsAt x`. -/
theorem wordDecodesToTheOneRowItMatches : Obligations.WordDecodesToTheOneRowItMatches := by
  unfold Obligations.WordDecodesToTheOneRowItMatches
  intro x idx data keylen
  have row : ∀ ins ∈ instrsAt x, x &&& ins.row.mask = ins.row.pattern ↔ decodeHt x = ins :=
    fun ins mem => beq_iff_eq.symm.trans (selects_iff_decodeHt mem)
  simp only [instrsAt, List.forall_mem_cons] at row
  obtain ⟨readReg, nop, loadKey, encrypt, decrypt, clearKey, illegal5, illegal6or7, writeStatus,
    rsvd2to3, rsvd4to7, writeKey, writeDin, writeDout, rsvd24to31, -⟩ := row
  exact ⟨readReg, nop, loadKey, encrypt, decrypt, clearKey, illegal5, illegal6or7, writeStatus,
    rsvd2to3, rsvd4to7, writeKey, writeDin, writeDout, rsvd24to31, exactly_one_row_selects x⟩

end Sys2Proof.Laws
end

section
/-! PROOFS. Host writes and commands (spec/40_host_interface.md R102 to R109): what a transaction
answers, one equation per outcome, then what a write leaves in KEY and DIN and what a command write
reports. -/

namespace Sys2Proof.Machine

/-! ## The answer of a command, one equation per outcome -/

theorem exec_nop (keylen : BitVec 6) (s : State) :
    exec (.nop keylen) s = .next (storeCtrl 0#3 keylen s) := rfl

theorem exec_illegalCmd5 (keylen : BitVec 6) (s : State) :
    exec (.illegalCmd5 keylen) s = .next (raise .illegalCmd (storeCtrl 5#3 keylen s)) := rfl

theorem exec_illegalCmd6or7 (cmd : BitVec 3) (keylen : BitVec 6) (s : State) :
    exec (.illegalCmd6or7 cmd keylen) s = .next (raise .illegalCmd (storeCtrl cmd keylen s)) := rfl

section
variable {s : State} (keylen : BitVec 6)

theorem exec_loadKey_busy (running : s.phase ≠ .idle) :
    exec (.loadKey keylen) s = .next (raise .busy (storeCtrl 1#3 keylen s)) := by
  rw [exec, execLoadKey, unlessBusy_busy (s := storeCtrl 1#3 keylen s) running]

theorem exec_loadKey_badSize (idle : s.phase = .idle) (size : keylenAccepted keylen = false) :
    exec (.loadKey keylen) s = .next (raise .invalidKeySize (storeCtrl 1#3 keylen s)) := by
  simp [exec, execLoadKey, unlessBusy_idle, idle, size]

theorem exec_loadKey_accepted (idle : s.phase = .idle) (size : keylenAccepted keylen = true) :
    exec (.loadKey keylen) s = .next (acceptLoadKey keylen (storeCtrl 1#3 keylen s)) := by
  simp [exec, execLoadKey, unlessBusy_idle, idle, size]

theorem exec_encrypt_busy (running : s.phase ≠ .idle) :
    exec (.encrypt keylen) s = .next (raise .busy (storeCtrl 2#3 keylen s)) := by
  rw [exec, execEncrypt, unlessBusy_busy (s := storeCtrl 2#3 keylen s) running]

theorem exec_encrypt_noKey (idle : s.phase = .idle) (invalid : s.keyValid = false) :
    exec (.encrypt keylen) s = .next (raise .noKey (storeCtrl 2#3 keylen s)) := by
  simp [exec, execEncrypt, unlessBusy_idle, idle, unlessNoKey_invalid, invalid]

theorem exec_encrypt_accepted (idle : s.phase = .idle) (valid : s.keyValid = true) :
    exec (.encrypt keylen) s = .next (acceptEncrypt (storeCtrl 2#3 keylen s)) := by
  simp [exec, execEncrypt, unlessBusy_idle, idle, unlessNoKey_valid, valid]

theorem exec_decrypt_busy (running : s.phase ≠ .idle) :
    exec (.decrypt keylen) s = .next (raise .busy (storeCtrl 3#3 keylen s)) := by
  rw [exec, execDecrypt, unlessBusy_busy (s := storeCtrl 3#3 keylen s) running]

theorem exec_decrypt_noKey (idle : s.phase = .idle) (invalid : s.keyValid = false) :
    exec (.decrypt keylen) s = .next (raise .noKey (storeCtrl 3#3 keylen s)) := by
  simp [exec, execDecrypt, unlessBusy_idle, idle, unlessNoKey_invalid, invalid]

theorem exec_decrypt_accepted (idle : s.phase = .idle) (valid : s.keyValid = true)
    (context : contextOk s = true) :
    exec (.decrypt keylen) s = .next (acceptDecrypt (storeCtrl 3#3 keylen s)) := by
  have stored : contextOk (storeCtrl 3#3 keylen s) = true := context
  simp [exec, execDecrypt, unlessBusy_idle, idle, unlessNoKey_valid, valid, stored]

theorem exec_clearKey_busy (running : s.phase ≠ .idle) :
    exec (.clearKey keylen) s = .next (raise .busy (storeCtrl 4#3 keylen s)) := by
  rw [exec, execClearKey, unlessBusy_busy (s := storeCtrl 4#3 keylen s) running]

theorem exec_clearKey_accepted (idle : s.phase = .idle) :
    exec (.clearKey keylen) s = .next (acceptClearKey (storeCtrl 4#3 keylen s)) := by
  simp [exec, execClearKey, unlessBusy_idle, idle]

end

/-! ## The register an IDX names, and a write to it -/

theorem regOf_eq_key_iff : ∀ (idx : BitVec 5) (j : Fin 8),
    regOf idx = .key j ↔ idx.toNat = 8 + j.val := by
  decide

theorem regOf_eq_din_iff : ∀ (idx : BitVec 5) (c : Fin 4),
    regOf idx = .din c ↔ idx.toNat = 16 + c.val := by
  decide

theorem regWrite_key_getD (idx : BitVec 5) (v : Word) (s : State) {j : Nat} (hj : j < 8) :
    (regWrite idx v s).key.getD j 0 = if idx.toNat = 8 + j then v else s.key.getD j 0 := by
  have named := regOf_eq_key_iff idx ⟨j, hj⟩
  unfold regWrite
  split
  next k reg =>
    rw [reg, Reg.key.injEq, Fin.ext_iff] at named
    simp only [getD_set, ← named, eq_comm]
  all_goals simp_all

theorem regWrite_din_column (idx : BitVec 5) (v : Word) (s : State) (c : Fin 4) :
    column (regWrite idx v s).din c = if idx.toNat = 16 + c.val then v else column s.din c := by
  have named := regOf_eq_din_iff idx c
  unfold regWrite
  split
  next => simp_all
  next d reg =>
    rw [reg, Reg.din.injEq] at named
    simp only [column_setColumn, ← named, eq_comm]
  all_goals simp_all

theorem regWrite_frame (idx : BitVec 5) (v : Word) (s : State) :
    regWrite idx v s =
      { s with key := (regWrite idx v s).key, din := (regWrite idx v s).din } := by
  unfold regWrite
  split <;> rfl

/-- An IDX outside 8..19 names no holding register. -/
theorem regWrite_ignored {idx : BitVec 5} (v : Word) (s : State)
    (outside : idx.toNat ≤ 7 ∨ 20 ≤ idx.toNat) : regWrite idx v s = s := by
  unfold regWrite
  split
  next j reg => have := (regOf_eq_key_iff idx j).mp reg; omega
  next c reg => have := (regOf_eq_din_iff idx c).mp reg; omega
  all_goals rfl

/-- Every write but a command is `RegWrite` (spec/40_host_interface.md R102). -/
theorem exec_decodeWrite {idx : BitVec 5} (data : Word) (s : State) (noCtrl : idx.toNat ≠ 0) :
    exec (decodeWrite idx data) s = .next (regWrite idx data s) := by
  have ignored (outside : idx.toNat ≤ 7 ∨ 20 ≤ idx.toNat) :
      (.next s : Result) = .next (regWrite idx data s) := by
    rw [regWrite_ignored data s outside]
  unfold decodeWrite
  dsimp only
  split_ifs with i0 i1 i3 i7 i15 i19 i23
  · exact absurd i0 noCtrl
  · exact ignored (by omega)
  · exact ignored (by omega)
  · exact ignored (by omega)
  · rfl
  · rfl
  · exact ignored (by omega)
  · exact ignored (by omega)

/-! ## Micro-steps report nothing -/

theorem CoreEffect.err_eq {s t : State} (effect : CoreEffect s t) : t.err = s.err := by
  cases effect <;> rfl

/-! ## What a command write reports -/

/-- The code of the first check that applies to a command write
(spec/40_host_interface.md R106). -/
def firstCheck (s : State) (cmd : BitVec 3) (keylen : BitVec 6) : BitVec 3 :=
  if 5 ≤ cmd.toNat then 5#3
  else if s.phase ≠ .idle then 4#3
  else if cmd = 1#3 then (if keylen.toNat ∈ [16, 24, 32] then 0#3 else 1#3)
  else if cmd = 4#3 then 0#3
  else if s.keyValid = false then 3#3
  else 0#3

/-- `t` is what a command write makes of `s`: the CTRL fields and the outcome of the first check
(spec/40_host_interface.md R103, R106, spec/60_exceptions.md R253). -/
def ReportsFirstCheck (s : State) (cmd : BitVec 3) (keylen : BitVec 6) (t : State) : Prop :=
  t.ctrlCmd = cmd ∧ t.ctrlKeylen = keylen ∧
    (cmd = 0#3 → t = { s with ctrlCmd := cmd, ctrlKeylen := keylen }) ∧
    (cmd ≠ 0#3 → firstCheck s cmd keylen ≠ 0#3 →
      t = { s with ctrlCmd := cmd, ctrlKeylen := keylen, err := firstCheck s cmd keylen }) ∧
    (cmd ≠ 0#3 → firstCheck s cmd keylen = 0#3 → t.err = 0#3 ∧
      (cmd = 1#3 → t.phase = .expand ∧ t.done = false) ∧
      (cmd = 2#3 → t.phase = .enc ∧ t.done = false) ∧
      (cmd = 3#3 → t.phase = .dec ∧ t.done = false) ∧
      (cmd = 4#3 → t.phase = .idle ∧ t.done = true))

section
variable {s : State} {cmd : BitVec 3} (keylen : BitVec 6)

theorem firstCheck_illegal (illegal : 5 ≤ cmd.toNat) : firstCheck s cmd keylen = 5#3 :=
  if_pos illegal

theorem firstCheck_busy (legal : cmd.toNat < 5) (running : s.phase ≠ .idle) :
    firstCheck s cmd keylen = 4#3 := by
  rw [firstCheck, if_neg (by omega), if_pos running]

/-- A rejection reports its own code and changes nothing else. -/
theorem reports_raise {e : ErrCode} (command : cmd ≠ 0#3)
    (check : firstCheck s cmd keylen = e.code) (error : e ≠ .none) :
    ReportsFirstCheck s cmd keylen (raise e (storeCtrl cmd keylen s)) := by
  have code : e.code ≠ 0#3 := by cases e <;> simp_all [ErrCode.code]
  refine ⟨rfl, rfl, fun nop => absurd nop command, fun _ _ => ?_, fun _ none => ?_⟩
  · rw [check]; rfl
  · exact absurd (check.symm.trans none) code

theorem reports_nop : ReportsFirstCheck s 0#3 keylen (storeCtrl 0#3 keylen s) :=
  ⟨rfl, rfl, fun _ => rfl, fun command => absurd rfl command, fun command => absurd rfl command⟩

theorem reports_busy (command : cmd ≠ 0#3) (legal : cmd.toNat < 5) (running : s.phase ≠ .idle) :
    ReportsFirstCheck s cmd keylen (raise .busy (storeCtrl cmd keylen s)) :=
  reports_raise keylen command (firstCheck_busy keylen legal running) (by decide)

theorem reports_illegal (illegal : 5 ≤ cmd.toNat) :
    ReportsFirstCheck s cmd keylen (raise .illegalCmd (storeCtrl cmd keylen s)) :=
  reports_raise keylen (by rintro rfl; contradiction) (firstCheck_illegal keylen illegal)
    (by decide)

/-- An acceptance clears ERR and starts, or for CLEAR_KEY completes, its operation. -/
theorem reports_accepted {t : State} (command : cmd ≠ 0#3) (check : firstCheck s cmd keylen = 0#3)
    (ctrlCmd : t.ctrlCmd = cmd) (ctrlKeylen : t.ctrlKeylen = keylen)
    (operation : t.err = 0#3 ∧
      (cmd = 1#3 → t.phase = .expand ∧ t.done = false) ∧
      (cmd = 2#3 → t.phase = .enc ∧ t.done = false) ∧
      (cmd = 3#3 → t.phase = .dec ∧ t.done = false) ∧
      (cmd = 4#3 → t.phase = .idle ∧ t.done = true)) : ReportsFirstCheck s cmd keylen t :=
  ⟨ctrlCmd, ctrlKeylen, fun nop => absurd nop command, fun _ error => absurd check error,
    fun _ _ => operation⟩

theorem loadKey_reports :
    ∃ t, exec (.loadKey keylen) s = .next t ∧ ReportsFirstCheck s 1#3 keylen t := by
  by_cases idle : s.phase = .idle
  · have sizes : keylenAccepted keylen = true ↔ keylen.toNat ∈ [16, 24, 32] := by
      simp [keylenAccepted_iff]
    cases size : keylenAccepted keylen
    · exact ⟨_, exec_loadKey_badSize keylen idle size, reports_raise keylen (by decide)
        (by simp [firstCheck, idle, ← sizes, size, ErrCode.code]) (by decide)⟩
    · exact ⟨_, exec_loadKey_accepted keylen idle size, reports_accepted keylen (by decide)
        (by simp [firstCheck, idle, ← sizes, size]) rfl rfl (by simp)⟩
  · exact ⟨_, exec_loadKey_busy keylen idle, reports_busy keylen (by decide) (by decide) idle⟩

theorem encrypt_reports :
    ∃ t, exec (.encrypt keylen) s = .next t ∧ ReportsFirstCheck s 2#3 keylen t := by
  by_cases idle : s.phase = .idle
  · cases valid : s.keyValid
    · exact ⟨_, exec_encrypt_noKey keylen idle valid, reports_raise keylen (by decide)
        (by simp [firstCheck, idle, valid, ErrCode.code]) (by decide)⟩
    · exact ⟨_, exec_encrypt_accepted keylen idle valid, reports_accepted keylen (by decide)
        (by simp [firstCheck, idle, valid]) rfl rfl (by simp)⟩
  · exact ⟨_, exec_encrypt_busy keylen idle, reports_busy keylen (by decide) (by decide) idle⟩

theorem decrypt_reports (context : s.keyValid = true → contextOk s = true) :
    ∃ t, exec (.decrypt keylen) s = .next t ∧ ReportsFirstCheck s 3#3 keylen t := by
  by_cases idle : s.phase = .idle
  · cases valid : s.keyValid
    · exact ⟨_, exec_decrypt_noKey keylen idle valid, reports_raise keylen (by decide)
        (by simp [firstCheck, idle, valid, ErrCode.code]) (by decide)⟩
    · exact ⟨_, exec_decrypt_accepted keylen idle valid (context valid),
        reports_accepted keylen (by decide) (by simp [firstCheck, idle, valid]) rfl rfl (by simp)⟩
  · exact ⟨_, exec_decrypt_busy keylen idle, reports_busy keylen (by decide) (by decide) idle⟩

theorem clearKey_reports :
    ∃ t, exec (.clearKey keylen) s = .next t ∧ ReportsFirstCheck s 4#3 keylen t := by
  by_cases idle : s.phase = .idle
  · exact ⟨_, exec_clearKey_accepted keylen idle, reports_accepted keylen (by decide)
      (by simp [firstCheck, idle]) rfl rfl (by simp [idle])⟩
  · exact ⟨_, exec_clearKey_busy keylen idle, reports_busy keylen (by decide) (by decide) idle⟩

end

/-- The decoder picks the command by CMD; each command reports the first check. -/
theorem decodeCommand_reports {s : State} (data : Word)
    (context : s.keyValid = true → contextOk s = true) :
    ∃ t, exec (decodeCommand data) s = .next t ∧
      ReportsFirstCheck s (cwCmd data) (cwKeylen data) t := by
  unfold decodeCommand
  dsimp only
  split_ifs with nop loadKey encrypt decrypt clearKey illegal5
  · rw [nop]; exact ⟨_, exec_nop .., reports_nop _⟩
  · rw [loadKey]; exact loadKey_reports _
  · rw [encrypt]; exact encrypt_reports _
  · rw [decrypt]; exact decrypt_reports _ context
  · rw [clearKey]; exact clearKey_reports _
  · rw [illegal5]; exact ⟨_, exec_illegalCmd5 .., reports_illegal _ (by decide)⟩
  · have illegal : 5 ≤ (cwCmd data).toNat := by bv_omega
    exact ⟨_, exec_illegalCmd6or7 .., reports_illegal _ illegal⟩

end Sys2Proof.Machine

/-! ## The statements -/

namespace Sys2Proof.Laws

open Sys2Proof.Machine

/-- Settles O13: the word decodes to a write, and every write but a command is `RegWrite`. -/
theorem nonCtrlWriteWordSetsOnlyItsRegister : Obligations.NonCtrlWriteWordSetsOnlyItsRegister := by
  unfold Obligations.NonCtrlWriteWordSetsOnlyItsRegister
  intro s x we idx
  have write : htWe x = 1#1 := by
    simpa [htWe, BitVec.eq_of_getLsbD_eq_iff] using we
  have noCtrl : (htIdx x).toNat ≠ 0 := fun zero => idx (BitVec.eq_of_toNat_eq zero)
  refine ⟨regWrite (htIdx x) (htData x) s, ?_, regWrite_frame _ _ _, fun j hj => ?_, fun c => ?_⟩
  · rw [decodeHt_write write, exec_decodeWrite _ _ noCtrl]
  · exact regWrite_key_getD _ _ _ hj
  · exact regWrite_din_column _ _ _ c

/-- Settles O17: the BUSY and NO_KEY equations of the commands, and the micro-steps' effects. -/
theorem busyAndNoKeyRejectionsChangeOnlyErr : Obligations.BusyAndNoKeyRejectionsChangeOnlyErr := by
  unfold Obligations.BusyAndNoKeyRejectionsChangeOnlyErr
  intro s keylen
  refine ⟨fun running => ?_, fun idle invalid => ?_, fun t run => (coreStep_next run).err_eq⟩
  · exact ⟨exec_loadKey_busy keylen running, exec_encrypt_busy keylen running,
      exec_decrypt_busy keylen running, exec_clearKey_busy keylen running⟩
  · exact ⟨exec_encrypt_noKey keylen idle invalid, exec_decrypt_noKey keylen idle invalid⟩

/-- Settles O23: a CTRL write decodes to a command, and each command reports the first check. -/
theorem commandWriteReportsTheFirstOutcome : Obligations.CommandWriteReportsTheFirstOutcome := by
  unfold Obligations.CommandWriteReportsTheFirstOutcome
  intro s x context ctrl
  rw [decodeHt_command ctrl, ← cwCmd_htData, ← cwKeylen_htData]
  exact decodeCommand_reports (htData x) context

/-- Settles O15: the NOP's answer is the store of the CTRL fields. -/
theorem nopStoresOnlyTheCtrlFields : Obligations.NopStoresOnlyTheCtrlFields := by
  unfold Obligations.NopStoresOnlyTheCtrlFields
  exact fun s keylen => exec_nop keylen s

/-- Settles O16: the answers of both ILLEGAL_CMD rows, which check nothing before they raise. -/
theorem illegalCommandSetsErrFive : Obligations.IllegalCommandSetsErrFive := by
  unfold Obligations.IllegalCommandSetsErrFive
  exact fun s cmd keylen => ⟨exec_illegalCmd5 keylen s, exec_illegalCmd6or7 cmd keylen s⟩

end Sys2Proof.Laws
end

section
/-! PROOFS. The key schedule (spec/42_key_schedule.md): the schedule word in the spec's own
words, the answer of an EXPAND micro-step before the last, and what LOAD_KEY and CLEAR_KEY leave
unchanged. -/

namespace Sys2Proof.Machine

/-- The `temp` of R162, with the round constant as the byte shifted to the top
(spec/42_key_schedule.md R162, spec/41_tables.md R137). -/
theorem expandTemp_eq_shift (nk i : Nat) (prev : Word) :
    expandTemp nk i prev =
      if i % nk = 0 then subWord (rotWord prev) ^^^ ((rcon (i / nk)).setWidth 32 <<< 24)
      else if nk > 6 ∧ i % nk = 4 then subWord prev
      else prev := by
  rw [expandTemp, rconWord_eq_shift]

theorem coreStep_expand_more {s : State} (phase : s.phase = .expand)
    (range : expandInRange s = true) (more : s.i.toNat + 1 < 4 * (s.nr.toNat + 1)) :
    coreStep s = .next { s with w := expandAt s.w s.nk.toNat s.i.toNat, i := s.i + 1#6 } := by
  simp only [coreStep, phase, expandStep, range, if_true, if_pos more]

/-- In range, `i` is at most 59 and so has a successor in its 6 bits (spec/10_state.md R36). -/
theorem expandInRange_next_index {s : State} (range : expandInRange s = true) :
    (s.i + 1#6).toNat = s.i.toNat + 1 := by
  obtain ⟨context, -, high⟩ := (expandInRange_iff s).mp range
  obtain ⟨size, rounds⟩ := (contextOk_iff s).mp context
  exact toNat_add_one_six (by omega)

end Sys2Proof.Machine

/-! ## The statements -/

namespace Sys2Proof.Laws

open Sys2Proof.Machine

/-- Settles O25: the micro-step's answer, its one schedule write and the successor of `i`. -/
theorem expandStepComputesOneWord : Obligations.ExpandStepComputesOneWord := by
  unfold Obligations.ExpandStepComputesOneWord
  intro s phase range more nk i prev temp
  have word : expandWord s.w nk i = s.w.getD (i - nk) 0 ^^^ temp := by
    rw [expandWord, expandTemp_eq_shift]
  refine ⟨_, coreStep_expand_more phase range (by omega), expandInRange_next_index range,
    fun j hj => ?_, rfl⟩
  rw [← word]
  exact getD_expandAt s.w nk i j hj

/-- Settles O18: a KEYLEN outside the three accepted ones is rejected with its code. -/
theorem invalidKeySizeChangesOnlyErr : Obligations.InvalidKeySizeChangesOnlyErr := by
  unfold Obligations.InvalidKeySizeChangesOnlyErr
  intro s keylen idle not16 not24 not32
  have size : keylenAccepted keylen = false := by
    rw [Bool.eq_false_iff, Ne, keylenAccepted_iff]
    omega
  exact exec_loadKey_badSize keylen idle size

/-- Settles O20: the acceptance while idle writes zero vectors; the BUSY rejection otherwise. -/
theorem clearKeyZeroesTheKey : Obligations.ClearKeyZeroesTheKey := by
  unfold Obligations.ClearKeyZeroesTheKey
  intro s keylen
  refine ⟨fun idle => ?_, exec_clearKey_busy keylen⟩
  exact ⟨_, exec_clearKey_accepted keylen idle, fun j _ => getD_replicate 0 j,
    fun j _ => getD_replicate 0 j, rfl⟩

end Sys2Proof.Laws
end

section
/-! PROOFS. The forward round (spec/43_forward_round.md R181 to R185): each transform read byte by
byte, the commutation of SubBytes and ShiftRows, and the ENC micro-step. -/

namespace Sys2Proof.Machine

/-! ## The transforms, byte by byte -/

/-- Two blocks with the same sixteen bytes are equal. -/
theorem block_ext_cell {a b : Block} (h : ∀ r c, cell a r c = cell b r c) : a = b :=
  block_ext fun c => word_ext (h 0 c) (h 1 c) (h 2 c) (h 3 c)

@[simp] theorem byteAt_subWord (k : Fin 4) (w : Word) :
    byteAt k (subWord w) = sbox (byteAt k w) := by
  match k with
  | 0 => exact byteAt_pack_0 ..
  | 1 => exact byteAt_pack_1 ..
  | 2 => exact byteAt_pack_2 ..
  | 3 => exact byteAt_pack_3 ..

/-- SubBytes (spec/43_forward_round.md R181). -/
@[simp] theorem cell_subBytes (b : Block) (r c : Fin 4) :
    cell (subBytes b) r c = sbox (cell b r c) := by
  simp [cell, subBytes]

/-- Column `c` after ShiftRows (spec/43_forward_round.md R182). -/
@[simp] theorem column_shiftRows (b : Block) (c : Fin 4) :
    column (shiftRows b) c =
      pack (cell b 0 c) (cell b 1 (c + 1)) (cell b 2 (c + 2)) (cell b 3 (c + 3)) := by
  simp [shiftRows]

/-- ShiftRows (spec/43_forward_round.md R182). -/
@[simp] theorem cell_shiftRows (b : Block) (r c : Fin 4) :
    cell (shiftRows b) r c = cell b r (c + r) := by
  rw [cell, column_shiftRows]
  match r with
  | 0 => simp
  | 1 => simp
  | 2 => simp
  | 3 => simp

/-- SubBytes acts on each byte by itself, so it may come after ShiftRows. -/
theorem subBytes_shiftRows (b : Block) : subBytes (shiftRows b) = shiftRows (subBytes b) :=
  block_ext_cell fun r c => by simp

/-! ## The full round -/

/-- A byte of a full round: MixColumns on the substituted and shifted column, then the round key
(spec/43_forward_round.md R185). -/
theorem cell_fullRound (w : Vector Word 60) (n : Nat) (b : Block) (r c : Fin 4) :
    cell (fullRound w n b) r c =
      byteAt r (mixColumn (pack (sbox (cell b 0 c)) (sbox (cell b 1 (c + 1)))
        (sbox (cell b 2 (c + 2))) (sbox (cell b 3 (c + 3))))) ^^^
      byteAt r (w.getD (4 * n + c.val) 0) := by
  rw [cell, fullRound, column_addRoundKey, byteAt_xor]
  simp [mixColumns]

section
variable (a0 a1 a2 a3 : Byte)

/-! MixColumns on a packed column, one row each (spec/43_forward_round.md R183). -/

@[simp] theorem byteAt_0_mixColumn_pack :
    byteAt 0 (mixColumn (pack a0 a1 a2 a3)) = gmul 2 a0 ^^^ gmul 3 a1 ^^^ a2 ^^^ a3 := by
  simp [mixColumn]

@[simp] theorem byteAt_1_mixColumn_pack :
    byteAt 1 (mixColumn (pack a0 a1 a2 a3)) = a0 ^^^ gmul 2 a1 ^^^ gmul 3 a2 ^^^ a3 := by
  simp [mixColumn]

@[simp] theorem byteAt_2_mixColumn_pack :
    byteAt 2 (mixColumn (pack a0 a1 a2 a3)) = a0 ^^^ a1 ^^^ gmul 2 a2 ^^^ gmul 3 a3 := by
  simp [mixColumn]

@[simp] theorem byteAt_3_mixColumn_pack :
    byteAt 3 (mixColumn (pack a0 a1 a2 a3)) = gmul 3 a0 ^^^ a1 ^^^ a2 ^^^ gmul 2 a3 := by
  simp [mixColumn]

end

/-! ## The ENC micro-step before the last -/

theorem coreStep_enc_more {s : State} (phase : s.phase = .enc) (range : encInRange s = true)
    (more : s.rnd.toNat < s.nr.toNat) :
    coreStep s = .next { s with st := fullRound s.w s.rnd.toNat s.st, rnd := s.rnd + 1#4 } := by
  simp only [coreStep, phase, encStep, range, if_true, if_pos more]

end Sys2Proof.Machine

/-! ## The statement -/

namespace Sys2Proof.Laws

open Sys2Proof.Machine

/-- Settles O28: the micro-step's answer, its round read byte by byte, and the successor of `rnd`,
which is below Nr and so has one in its 4 bits. -/
theorem encStepIsOneFullRound : Obligations.EncStepIsOneFullRound := by
  unfold Obligations.EncStepIsOneFullRound
  intro s phase range more
  have succ : (s.rnd + 1#4).toNat = s.rnd.toNat + 1 := toNat_add_one_four (by omega)
  refine ⟨_, coreStep_enc_more phase range more, succ, rfl, subBytes_shiftRows s.st, ?_⟩
  intro c a0 a1 a2 a3 k
  have round (r : Fin 4) : cell (fullRound s.w s.rnd.toNat s.st) r c =
      byteAt r (mixColumn (pack a0 a1 a2 a3)) ^^^ byteAt r k := cell_fullRound ..
  simp only [round, byteAt_0_mixColumn_pack, byteAt_1_mixColumn_pack, byteAt_2_mixColumn_pack,
    byteAt_3_mixColumn_pack, and_self]

end Sys2Proof.Laws
end

section
/-! PROOFS. The inverse round (spec/44_inverse_round.md R201 to R205): each transform read byte by
byte, the commutation of InvSubBytes and InvShiftRows, the linearity of InvMixColumns, and the DEC
micro-step. -/

namespace Sys2Proof.Machine

/-! ## The transforms, byte by byte -/

@[simp] theorem byteAt_invSubWord (k : Fin 4) (w : Word) :
    byteAt k (invSubWord w) = invSbox (byteAt k w) := by
  match k with
  | 0 => exact byteAt_pack_0 ..
  | 1 => exact byteAt_pack_1 ..
  | 2 => exact byteAt_pack_2 ..
  | 3 => exact byteAt_pack_3 ..

/-- InvSubBytes (spec/44_inverse_round.md R201). -/
@[simp] theorem cell_invSubBytes (b : Block) (r c : Fin 4) :
    cell (invSubBytes b) r c = invSbox (cell b r c) := by
  simp [cell, invSubBytes]

/-- Column `c` after InvShiftRows, with the offsets of the spec's formula
(spec/44_inverse_round.md R202). -/
@[simp] theorem column_invShiftRows (b : Block) (c : Fin 4) :
    column (invShiftRows b) c =
      pack (cell b 0 c) (cell b 1 (c - 1)) (cell b 2 (c - 2)) (cell b 3 (c - 3)) := by
  match c with
  | 0 => rfl
  | 1 => rfl
  | 2 => rfl
  | 3 => rfl

/-- InvShiftRows (spec/44_inverse_round.md R202). -/
@[simp] theorem cell_invShiftRows (b : Block) (r c : Fin 4) :
    cell (invShiftRows b) r c = cell b r (c - r) := by
  rw [cell, column_invShiftRows]
  match r with
  | 0 => simp
  | 1 => simp
  | 2 => simp
  | 3 => simp

/-- InvSubBytes acts on each byte by itself, so it may come before InvShiftRows. -/
theorem invSubBytes_invShiftRows (b : Block) :
    invSubBytes (invShiftRows b) = invShiftRows (invSubBytes b) :=
  block_ext_cell fun r c => by simp

/-- AddRoundKey (spec/43_forward_round.md R184). -/
@[simp] theorem cell_addRoundKey (w : Vector Word 60) (b : Block) (n : Nat) (r c : Fin 4) :
    cell (addRoundKey w b n) r c = cell b r c ^^^ byteAt r (w.getD (4 * n + c.val) 0) := by
  simp [cell]

section
variable (w : Word)

/-! InvMixColumns on one column, one row each (spec/44_inverse_round.md R203). -/

@[simp] theorem byteAt_0_invMixColumn :
    byteAt 0 (invMixColumn w) = gmul 0x0e (byteAt 0 w) ^^^ gmul 0x0b (byteAt 1 w) ^^^
      gmul 0x0d (byteAt 2 w) ^^^ gmul 0x09 (byteAt 3 w) := by
  simp [invMixColumn]

@[simp] theorem byteAt_1_invMixColumn :
    byteAt 1 (invMixColumn w) = gmul 0x09 (byteAt 0 w) ^^^ gmul 0x0e (byteAt 1 w) ^^^
      gmul 0x0b (byteAt 2 w) ^^^ gmul 0x0d (byteAt 3 w) := by
  simp [invMixColumn]

@[simp] theorem byteAt_2_invMixColumn :
    byteAt 2 (invMixColumn w) = gmul 0x0d (byteAt 0 w) ^^^ gmul 0x09 (byteAt 1 w) ^^^
      gmul 0x0e (byteAt 2 w) ^^^ gmul 0x0b (byteAt 3 w) := by
  simp [invMixColumn]

@[simp] theorem byteAt_3_invMixColumn :
    byteAt 3 (invMixColumn w) = gmul 0x0b (byteAt 0 w) ^^^ gmul 0x0d (byteAt 1 w) ^^^
      gmul 0x09 (byteAt 2 w) ^^^ gmul 0x0e (byteAt 3 w) := by
  simp [invMixColumn]

end

/-! ## InvMixColumns is linear over exclusive or -/

/-- Each bit of the right factor selects its multiple of the left one, and so a bit set in both
summands cancels. -/
theorem gmulUpTo_xor (k : Nat) (a b c : Byte) :
    gmulUpTo k a (b ^^^ c) = gmulUpTo k a b ^^^ gmulUpTo k a c := by
  induction k with
  | zero => simp [gmulUpTo]
  | succ k ih =>
    have select (p q : Bool) (x : Byte) : (if (p ^^ q) = true then x else 0#8) =
        (if p = true then x else 0#8) ^^^ (if q = true then x else 0#8) := by
      cases p <;> cases q <;> simp
    simp only [gmulUpTo, ih, BitVec.getLsbD_xor, select]
    ac_rfl

/-- Multiplication distributes over exclusive or (spec/41_tables.md R131). -/
theorem gmul_xor (a b c : Byte) : gmul a (b ^^^ c) = gmul a b ^^^ gmul a c :=
  gmulUpTo_xor 8 a b c

/-- One column of InvMixColumns is linear (spec/44_inverse_round.md R203). -/
theorem invMixColumn_xor (v w : Word) :
    invMixColumn (v ^^^ w) = invMixColumn v ^^^ invMixColumn w := by
  apply word_ext
  all_goals
    simp only [byteAt_0_invMixColumn, byteAt_1_invMixColumn, byteAt_2_invMixColumn,
      byteAt_3_invMixColumn, byteAt_xor, gmul_xor]
    ac_rfl

@[simp] theorem column_invMixColumns (b : Block) (c : Fin 4) :
    column (invMixColumns b) c = invMixColumn (column b c) := by
  simp [invMixColumns]

/-- InvMixColumns is linear (spec/44_inverse_round.md R203). -/
theorem invMixColumns_xorBlock (a b : Block) :
    invMixColumns (xorBlock a b) = xorBlock (invMixColumns a) (invMixColumns b) :=
  block_ext fun c => by simp [invMixColumn_xor]

/-! ## The full inverse round -/

/-- A full inverse round with InvMixColumns applied to the round key
(spec/44_inverse_round.md R205). -/
theorem invFullRound_eq_xorBlock (w : Vector Word 60) (n : Nat) (b : Block) :
    invFullRound w n b =
      xorBlock (invMixColumns (invSubBytes (invShiftRows b))) (invMixColumns (roundKey w n)) :=
  invMixColumns_xorBlock ..

/-- A byte of a full inverse round: one column of InvMixColumns, after the round key
(spec/44_inverse_round.md R205). -/
theorem cell_invFullRound (w : Vector Word 60) (n : Nat) (b : Block) (r c : Fin 4) :
    cell (invFullRound w n b) r c =
      byteAt r (invMixColumn (column (addRoundKey w (invSubBytes (invShiftRows b)) n) c)) := by
  rw [cell, invFullRound, column_invMixColumns]

/-- The bytes that InvMixColumns takes in a full inverse round (spec/44_inverse_round.md R205). -/
theorem byteAt_column_invRound (w : Vector Word 60) (n : Nat) (b : Block) (r c : Fin 4) :
    byteAt r (column (addRoundKey w (invSubBytes (invShiftRows b)) n) c) =
      invSbox (cell b r (c - r)) ^^^ byteAt r (w.getD (4 * n + c.val) 0) := by
  rw [← cell, cell_addRoundKey, cell_invSubBytes, cell_invShiftRows]

/-! ## The DEC micro-step before the last -/

theorem coreStep_dec_more {s : State} (phase : s.phase = .dec) (range : decInRange s = true)
    (more : 1 ≤ s.rnd.toNat) :
    coreStep s = .next { s with st := invFullRound s.w s.rnd.toNat s.st, rnd := s.rnd - 1#4 } := by
  simp only [coreStep, phase, decStep, range, if_true, if_pos more]

end Sys2Proof.Machine

/-! ## The statement -/

namespace Sys2Proof.Laws

open Sys2Proof.Machine

/-- Settles O30: the micro-step's answer, the predecessor of `rnd`, the two corner cases of R205
as laws of the transforms, and the round read byte by byte. -/
theorem decStepIsOneFullInverseRound : Obligations.DecStepIsOneFullInverseRound := by
  unfold Obligations.DecStepIsOneFullInverseRound
  intro s phase range more
  refine ⟨_, coreStep_dec_more phase range more, toNat_sub_one_four more, rfl,
    invSubBytes_invShiftRows s.st, invFullRound_eq_xorBlock .., ?_⟩
  intro c k a0 a1 a2 a3
  simp only [cell_invFullRound, byteAt_0_invMixColumn, byteAt_1_invMixColumn,
    byteAt_2_invMixColumn, byteAt_3_invMixColumn, byteAt_column_invRound, sub_zero, a0, a1, a2, a3,
    k, and_self]

end Sys2Proof.Laws
end

section
/-! PROOFS. Encoding and decoding (spec/30_encoding.md R80 to R86): the decoder on a built word, the
operand ranges of what it answers, and the bits of a word that the encoder gives back. -/

namespace Sys2Proof

/-! ## The decoder on a built word -/

theorem decodeHt_mkHt_read (idx : BitVec 5) (data : Word) :
    decodeHt (mkHt 0#1 idx data) = .readReg idx := by
  rw [decodeHt_read (htWe_mkHt ..), htIdx_mkHt]

theorem decodeHt_mkHt_write (idx : BitVec 5) (data : Word) :
    decodeHt (mkHt 1#1 idx data) = decodeWrite idx data := by
  rw [decodeHt_write (htWe_mkHt ..), htIdx_mkHt, htData_mkHt]

theorem decodeHt_mkHt_ctrl (data : Word) : decodeHt (mkHt 1#1 0#5 data) = decodeCommand data :=
  decodeHt_mkHt_write 0#5 data

/-- A well-formed instruction's word decodes to it: the row's operand range is the branch of the
decoder that its word takes. -/
theorem decodeHt_encode {ins : Instr} (wf : ins.wellFormed = true) :
    decodeHt (encode ins) = ins := by
  cases ins with
  | readReg idx => exact decodeHt_mkHt_read ..
  | nop keylen => simp [encode, decodeHt_mkHt_ctrl, decodeCommand]
  | loadKey keylen => simp [encode, decodeHt_mkHt_ctrl, decodeCommand]
  | encrypt keylen => simp [encode, decodeHt_mkHt_ctrl, decodeCommand]
  | decrypt keylen => simp [encode, decodeHt_mkHt_ctrl, decodeCommand]
  | clearKey keylen => simp [encode, decodeHt_mkHt_ctrl, decodeCommand]
  | illegalCmd5 keylen => simp [encode, decodeHt_mkHt_ctrl, decodeCommand]
  | illegalCmd6or7 cmd keylen =>
    simp only [Instr.wellFormed, Bool.or_eq_true, beq_iff_eq] at wf
    obtain rfl | rfl := wf <;> simp [encode, decodeHt_mkHt_ctrl, decodeCommand]
  | writeStatus => exact decodeHt_mkHt_write 1#5 0#32
  | writeRsvd2to3 idx
  | writeRsvd4to7 idx
  | writeKey idx data
  | writeDin idx data
  | writeDout idx
  | writeRsvd24to31 idx =>
    simp only [Instr.wellFormed, idxIn, Bool.and_eq_true, decide_eq_true_eq] at wf
    simp (disch := omega) only [encode, decodeHt_mkHt_write, decodeWrite, if_pos, if_neg]

/-! ## What the decoder answers is well-formed -/

theorem decodeCommand_wellFormed (data : Word) : (decodeCommand data).wellFormed = true := by
  unfold decodeCommand
  dsimp only
  split_ifs with c0 c1 c2 c3 c4 c5
  case neg =>
    have cmd : ∀ c : BitVec 3, c = 0#3 ∨ c = 1#3 ∨ c = 2#3 ∨ c = 3#3 ∨ c = 4#3 ∨ c = 5#3 ∨
        (c == 6#3 || c == 7#3) = true := by decide
    simpa [Instr.wellFormed, c0, c1, c2, c3, c4, c5] using cmd (cwCmd data)
  all_goals rfl

theorem decodeHt_wellFormed (x : HtWord) : (decodeHt x).wellFormed = true := by
  unfold decodeHt
  split_ifs with we
  · rfl
  · unfold decodeWrite
    dsimp only
    split_ifs
    · exact decodeCommand_wellFormed _
    · rfl
    all_goals
      simp only [Instr.wellFormed, idxIn, Bool.and_eq_true, decide_eq_true_eq]
      omega

/-! ## The bits that the encoder gives back -/

/-- The bits of DATA that a write to `idx` reads (spec/30_encoding.md R81, R86). -/
def usedData (idx : BitVec 5) : Word :=
  if idx.toNat = 0 then 0x00003f07#32
  else if 8 ≤ idx.toNat ∧ idx.toNat ≤ 19 then BitVec.allOnes 32
  else 0#32

/-- A command word of the fields of `data` has the bits of `data` that a command reads
(spec/30_encoding.md R81). -/
theorem mkCw_fields (data : Word) : mkCw (cwKeylen data) (cwCmd data) = data &&& 0x00003f07#32 := by
  rw [show 0x00003f07#32 = mkCw 0x3f#6 7#3 from rfl]
  apply BitVec.eq_of_getLsbD_eq
  intro j hj
  simp only [mkCw, cwKeylen, cwCmd, BitVec.getLsbD_and, BitVec.getLsbD_append,
    BitVec.getLsbD_extractLsb']
  interval_cases j <;> simp

theorem encode_decodeCommand (data : Word) :
    encode (decodeCommand data) = mkHt 1#1 0#5 (mkCw (cwKeylen data) (cwCmd data)) := by
  unfold decodeCommand
  dsimp only
  split_ifs with c0 c1 c2 c3 c4 c5
  case neg => rfl
  all_goals simp only [encode, *]

theorem encode_decodeWrite (idx : BitVec 5) (data : Word) :
    encode (decodeWrite idx data) = mkHt 1#1 idx (data &&& usedData idx) := by
  unfold decodeWrite
  dsimp only
  split_ifs with i0 i1
  · obtain rfl : idx = 0#5 := BitVec.eq_of_toNat_eq i0
    exact (encode_decodeCommand data).trans (congrArg _ (mkCw_fields data))
  · obtain rfl : idx = 1#5 := BitVec.eq_of_toNat_eq i1
    simp [encode, usedData]
  all_goals
    simp (disch := omega) only [encode, usedData, if_pos, if_neg, BitVec.and_allOnes,
      BitVec.and_zero]

/-- The bits of a word that its row reads (spec/30_encoding.md R80, R81, R86). -/
def usedBits (x : HtWord) : HtWord :=
  mkHt 1#1 0x1f#5 (if htWe x = 0#1 then 0#32 else usedData (htIdx x))

theorem encode_decodeHt (x : HtWord) : encode (decodeHt x) = x &&& usedBits x := by
  have fields (data : Word) : x &&& mkHt 1#1 0x1f#5 data =
      mkHt (htWe x) (htIdx x) (htData x &&& data) := by
    nth_rw 1 [← mkHt_fields x]
    rw [Laws.mkHt_and, show 1#1 = BitVec.allOnes 1 from rfl, show 0x1f#5 = BitVec.allOnes 5 from rfl,
      BitVec.and_allOnes, BitVec.and_allOnes]
  rw [usedBits, fields]
  obtain we | we := BitVec.eq_zero_or_eq_one (htWe x)
  · rw [decodeHt_read we, if_pos we, we, BitVec.and_zero]
    rfl
  · rw [decodeHt_write we, encode_decodeWrite, we, if_neg (by decide)]

end Sys2Proof

namespace Sys2Proof.Laws

/-- Settles O1: the decoder on the built word of each row. -/
theorem decodeOfEncodeIsTheInstruction : Obligations.DecodeOfEncodeIsTheInstruction := by
  unfold Obligations.DecodeOfEncodeIsTheInstruction
  intro ins wf
  rw [decode_toNat, decodeHt_encode wf]

/-- Settles O3: the word is its fields and the mask is the mask of each field. -/
theorem onlyUsedBitsReachTheInstruction : Obligations.OnlyUsedBitsReachTheInstruction := by
  unfold Obligations.OnlyUsedBitsReachTheInstruction
  intro x n
  rw [encode_decodeHt, usedBits]
  congr 1
  have we : x.getLsbD 37 = false ↔ htWe x = 0#1 := by
    simp [htWe, BitVec.eq_of_getLsbD_eq_iff]
  simp only [we, usedData, show n = (htIdx x).toNat from rfl]
  split_ifs <;> rfl

/-- Settles O4: the decoder run on each word. -/
theorem programWordsDecodeAsTheSpecSays : Obligations.ProgramWordsDecodeAsTheSpecSays := by
  unfold Obligations.ProgramWordsDecodeAsTheSpecSays
  decide

end Sys2Proof.Laws
end

section
/-! PROOFS. Steps, reset and register access (spec/00_scope.md R15, spec/10_state.md R22 to R31,
spec/40_host_interface.md R100 to R102, spec/70_reset_and_hazards.md R270): what a step answers for
each next event, what a read answers for each register, and the fields of STATUS. -/

namespace Sys2Proof.Machine

/-! ## The answer of a step, one equation per next event -/

section
variable {s : State} {rest : List Event}

theorem step_quiet (pending : s.events = []) : step s = coreStep s := by
  rw [step, pending]

theorem step_host {ht : HtWord} (pending : s.events = .host ht :: rest) :
    step s = exec (decodeHt ht) { s with events := rest } := by
  rw [step, pending]

theorem step_core (pending : s.events = .core :: rest) :
    step s = coreStep { s with events := rest } := by
  rw [step, pending]

theorem step_reset (pending : s.events = .reset :: rest) :
    step s = .next (resetBlock { s with events := rest }) := by
  rw [step, pending]

/-- A turn of the core is the same step whether its event is pending or nothing is. -/
theorem step_coreTurn (turn : s.events = .core :: rest ∨ (s.events = [] ∧ rest = [])) :
    step s = coreStep { s with events := rest } := by
  obtain pending | ⟨pending, rfl⟩ := turn
  · exact step_core pending
  · rw [step_quiet pending, ← pending]

end

section
variable {s : State}

theorem coreStep_idle (phase : s.phase = .idle) : coreStep s = .next s := by
  rw [coreStep, phase]

theorem coreStep_expand (phase : s.phase = .expand) : coreStep s = expandStep s := by
  rw [coreStep, phase]

theorem coreStep_enc (phase : s.phase = .enc) : coreStep s = encStep s := by
  rw [coreStep, phase]

theorem coreStep_dec (phase : s.phase = .dec) : coreStep s = decStep s := by
  rw [coreStep, phase]

end

/-! ## The register an IDX names -/

theorem regOf_eq_dout_iff : ∀ (idx : BitVec 5) (c : Fin 4),
    regOf idx = .dout c ↔ idx.toNat = 20 + c.val := by
  decide

theorem regOf_eq_ctrl_iff : ∀ idx : BitVec 5, regOf idx = .ctrl ↔ idx.toNat = 0 := by
  decide

theorem regOf_eq_status_iff : ∀ idx : BitVec 5, regOf idx = .status ↔ idx.toNat = 1 := by
  decide

/-- An IDX of 2..15 or 24..31 names a reserved register or a KEY register. -/
theorem regOf_reserved_or_key : ∀ idx : BitVec 5,
    (2 ≤ idx.toNat ∧ idx.toNat ≤ 15) ∨ 24 ≤ idx.toNat →
      regOf idx = .reserved ∨ ∃ j, regOf idx = .key j := by
  decide

/-! ## What a read answers -/

theorem exec_readReg (idx : BitVec 5) (s : State) :
    exec (.readReg idx) s = .next (respond (regRead s idx) s) := rfl

section
variable {s : State} {idx : BitVec 5}

theorem regRead_ctrl (reg : regOf idx = .ctrl) : regRead s idx = ctrlWord s := by
  rw [regRead, reg]

theorem regRead_status (reg : regOf idx = .status) : regRead s idx = statusWord s := by
  rw [regRead, reg]

theorem regRead_din {c : Fin 4} (reg : regOf idx = .din c) : regRead s idx = column s.din c := by
  rw [regRead, reg]

theorem regRead_dout {c : Fin 4} (reg : regOf idx = .dout c) :
    regRead s idx = column s.dout c := by
  rw [regRead, reg]

/-- Reserved registers read zero, and so do the KEY registers (spec/10_state.md R28, R29). -/
theorem regRead_zero (reg : regOf idx = .reserved ∨ ∃ j, regOf idx = .key j) :
    regRead s idx = 0 := by
  obtain reg | ⟨j, reg⟩ := reg <;> rw [regRead, reg]

end

/-- CTRL as a number: the two fields side by side (spec/10_state.md R23). -/
theorem ctrlWord_toNat (s : State) :
    (ctrlWord s).toNat = s.ctrlKeylen.toNat * 2 ^ 8 + s.ctrlCmd.toNat := by
  have cmd := s.ctrlCmd.isLt
  have keylen := s.ctrlKeylen.isLt
  rw [ctrlWord, BitVec.toNat_or, BitVec.toNat_shiftLeft, BitVec.toNat_setWidth,
    BitVec.toNat_setWidth, Nat.mod_eq_of_lt (by omega), Nat.mod_eq_of_lt (by omega),
    Nat.shiftLeft_eq, Nat.mod_eq_of_lt (by omega), Nat.mul_comm,
    Nat.two_pow_add_eq_or_of_lt (by omega)]

/-! ## Reset -/

theorem regRead_reset : ∀ idx, regRead State.reset idx = 0 := by
  decide

theorem regRead_resetBlock (s : State) (idx : BitVec 5) : regRead (resetBlock s) idx = 0 :=
  regRead_reset idx

theorem column_zeroBlock (c : Fin 4) : column zeroBlock c = 0 := by
  match c with
  | 0 | 1 | 2 | 3 => rfl

/-! ## A write to one holding register -/

theorem regWrite_key {idx : BitVec 5} {j : Fin 8} (v : Word) (s : State)
    (reg : regOf idx = .key j) : regWrite idx v s = { s with key := s.key.set j.val v } := by
  rw [regWrite, reg]

theorem regWrite_din {idx : BitVec 5} {c : Fin 4} (v : Word) (s : State)
    (reg : regOf idx = .din c) : regWrite idx v s = { s with din := setColumn s.din c v } := by
  rw [regWrite, reg]

theorem exec_writeKey (idx : BitVec 5) (v : Word) (s : State) :
    exec (.writeKey idx v) s = .next (regWrite idx v s) := rfl

theorem exec_writeDin (idx : BitVec 5) (v : Word) (s : State) :
    exec (.writeDin idx v) s = .next (regWrite idx v s) := rfl

/-! ## Bytes of KEY and of a block -/

/-- Key byte `4j+k` is byte `k` of `KEY[j]` (spec/10_state.md R28). -/
theorem keyByte_eq (key : Vector Word 8) {j k : Nat} (hj : j < 8) (hk : k < 4) :
    keyByte key (Fin.ofNat 32 (4 * j + k)) = byteAt (Fin.ofNat 4 k) (key.getD j 0) := by
  have index : (Fin.ofNat 32 (4 * j + k)).val = 4 * j + k := Nat.mod_eq_of_lt (by omega)
  rw [keyByte, index, show (4 * j + k) % 4 = k by omega, show (4 * j + k) / 4 = j by omega]

/-- Byte `4c+k` of a block is byte `k` of its column `c` (spec/20_memory.md R61). -/
theorem blockByte_eq (b : Block) {c k : Nat} (hc : c < 4) (hk : k < 4) :
    blockByte b (Fin.ofNat 16 (4 * c + k)) = byteAt (Fin.ofNat 4 k) (column b ⟨c, hc⟩) := by
  have index : (Fin.ofNat 16 (4 * c + k)).val = 4 * c + k := Nat.mod_eq_of_lt (by omega)
  rw [blockByte, index, show (4 * c + k) % 4 = k by omega, show (4 * c + k) / 4 = c by omega,
    show Fin.ofNat 4 c = ⟨c, hc⟩ from Fin.ext (Nat.mod_eq_of_lt hc), cell]

/-- The four bytes of a packed word, where `f k` is its byte `k`. -/
theorem bytes_of_pack {f : Nat → Byte} {v : Word} {b0 b1 b2 b3 : Byte}
    (byte : ∀ k, k < 4 → f k = byteAt (Fin.ofNat 4 k) v) (word : v = pack b0 b1 b2 b3) :
    f 0 = b0 ∧ f 1 = b1 ∧ f 2 = b2 ∧ f 3 = b3 := by
  subst word
  exact ⟨(byte 0 (by decide)).trans (byteAt_pack_0 ..),
    (byte 1 (by decide)).trans (byteAt_pack_1 ..), (byte 2 (by decide)).trans (byteAt_pack_2 ..),
    (byte 3 (by decide)).trans (byteAt_pack_3 ..)⟩

/-! ## The fields of STATUS -/

/-- A bit of a one-bit field. -/
theorem getLsbD_flagWord (b : Bool) (i : Nat) :
    (flagWord b).getLsbD i = (decide (i = 0) && b) := by
  cases b <;> rcases i with _ | i <;> simp [flagWord, BitVec.getLsbD_one]

/-- Every bit of STATUS: the field that holds its position, shifted there
(spec/10_state.md R25). -/
theorem getLsbD_statusWord (s : State) {i : Nat} (hi : i < 32) :
    (statusWord s).getLsbD i =
      if i < 4 then decide (i = 0) && busy s || decide (i = 1) && s.keyValid ||
        decide (i = 2) && s.done
      else if i < 8 then s.err.getLsbD (i - 4)
      else if i < 16 then (statusNr s).getLsbD (i - 8)
      else (statusKslen s).getLsbD (i - 16) := by
  have err (h : 8 ≤ i) : s.err.getLsbD (i - 4) = false := BitVec.getLsbD_of_ge _ _ (by omega)
  have nr (h : 16 ≤ i) : (statusNr s).getLsbD (i - 8) = false :=
    BitVec.getLsbD_of_ge _ _ (by omega)
  simp only [statusWord, BitVec.getLsbD_or, BitVec.getLsbD_shiftLeft, BitVec.getLsbD_setWidth,
    getLsbD_flagWord]
  interval_cases i <;> simp_all

theorem statusNr_toNat (s : State) :
    (statusNr s).toNat = if s.keyValid then s.nr.toNat else 0 := by
  unfold statusNr
  split <;> rfl

theorem statusKslen_toNat (s : State) :
    (statusKslen s).toNat = if s.keyValid then 4 * (s.nr.toNat + 1) % 2 ^ 6 else 0 := by
  unfold statusKslen
  split
  · exact BitVec.toNat_ofNat ..
  · rfl

/-- A field of STATUS, from its bits. -/
theorem extractLsb'_statusWord {s : State} {start len : Nat} {field : BitVec len}
    (bits : ∀ i, i < len → (statusWord s).getLsbD (start + i) = field.getLsbD i) :
    (statusWord s).extractLsb' start len = field := by
  apply BitVec.eq_of_getLsbD_eq
  intro i hi
  simp [hi, bits i hi]

end Sys2Proof.Machine

/-! ## The statements -/

namespace Sys2Proof.Laws

open Sys2Proof.Machine

/-- Settles O5: the word's decoding is the one the step uses. -/
theorem stepExecutesTheDecodedTransaction : Obligations.StepExecutesTheDecodedTransaction := by
  unfold Obligations.StepExecutesTheDecodedTransaction
  intro s ht rest ins pending decoded
  obtain rfl : decodeHt ht = ins := by simpa using decoded
  exact step_host pending

/-- Settles O6: a turn of the core, phase by phase. -/
theorem stepGivesTheCoreItsTurn : Obligations.StepGivesTheCoreItsTurn := by
  unfold Obligations.StepGivesTheCoreItsTurn
  intro s rest turn t
  rw [step_coreTurn turn]
  exact ⟨coreStep_idle (s := t), coreStep_expand (s := t), coreStep_enc (s := t),
    coreStep_dec (s := t)⟩

/-- Settles O8: the fields of the reset state. -/
theorem resetStateHoldsTheStatedValues : Obligations.ResetStateHoldsTheStatedValues := by
  unfold Obligations.ResetStateHoldsTheStatedValues
  exact ⟨rfl, rfl, getD_replicate 0, column_zeroBlock, column_zeroBlock, rfl, rfl, rfl, rfl,
    regRead_reset⟩

/-- Settles O7: the reset step gives every element its reset value. -/
theorem resetAbandonsAndClears : Obligations.ResetAbandonsAndClears := by
  unfold Obligations.ResetAbandonsAndClears
  intro s rest pending
  exact ⟨_, step_reset pending, rfl, rfl, rfl, rfl, rfl, rfl, getD_replicate 0,
    fun c => ⟨column_zeroBlock c, column_zeroBlock c⟩, regRead_resetBlock _, rfl, rfl⟩

/-- Settles O9: the value read, by the register that the index names. -/
theorem readRegAnswersTheRegister : Obligations.ReadRegAnswersTheRegister := by
  unfold Obligations.ReadRegAnswersTheRegister
  intro s idx
  refine ⟨regRead s idx, exec_readReg idx s, fun ctrl => ?_, fun status => ?_, fun low high => ?_,
    fun c din => ?_, fun c dout => ?_, fun low => ?_⟩
  · rw [regRead_ctrl ((regOf_eq_ctrl_iff idx).mpr ctrl), ctrlWord_toNat]
  · exact regRead_status ((regOf_eq_status_iff idx).mpr status)
  · exact regRead_zero (regOf_reserved_or_key idx (.inl ⟨low, high⟩))
  · exact regRead_din ((regOf_eq_din_iff idx c).mpr din)
  · exact regRead_dout ((regOf_eq_dout_iff idx c).mpr dout)
  · exact regRead_zero (regOf_reserved_or_key idx (.inr low))

/-- Settles O11: the one register that the index names is written. -/
theorem holdingRegisterWritesSetOneRegister :
    Obligations.HoldingRegisterWritesSetOneRegister := by
  unfold Obligations.HoldingRegisterWritesSetOneRegister
  intro s idx data
  refine ⟨fun low high => ⟨_, exec_writeKey idx data s, ?_, fun j hj => ?_⟩,
    fun low high => ⟨_, exec_writeDin idx data s, ?_, fun c => ?_⟩⟩
  · have reg := (regOf_eq_key_iff idx ⟨idx.toNat - 8, by omega⟩).mpr (by simp; omega)
    rw [regWrite_key data s reg]
  · rw [regWrite_key_getD idx data s hj]
    simp only [eq_comm, Nat.add_comm]
  · have reg := (regOf_eq_din_iff idx ⟨idx.toNat - 16, by omega⟩).mpr (by simp; omega)
    rw [regWrite_din data s reg]
  · rw [regWrite_din_column]
    simp only [eq_comm, Nat.add_comm]

/-- Settles O12: the five ignored writes. -/
theorem readOnlyAndReservedWritesChangeNothing :
    Obligations.ReadOnlyAndReservedWritesChangeNothing := by
  unfold Obligations.ReadOnlyAndReservedWritesChangeNothing
  intro s idx
  exact ⟨rfl, rfl, rfl, rfl, rfl⟩

/-- Settles O14: the word written, read back byte by byte. -/
theorem writtenWordsAreBigEndian : Obligations.WrittenWordsAreBigEndian := by
  unfold Obligations.WrittenWordsAreBigEndian
  intro s b0 b1 b2 b3
  refine ⟨fun j hj => ⟨_, exec_writeKey _ _ s, ?_⟩, fun c hc => ⟨_, exec_writeDin _ _ s, ?_⟩⟩
  · exact bytes_of_pack (f := fun k => keyByte _ (Fin.ofNat 32 (4 * j + k)))
      (fun k hk => keyByte_eq _ hj hk)
      ((regWrite_key_getD _ _ _ hj).trans (if_pos (by simp; omega)))
  · exact bytes_of_pack (f := fun k => blockByte _ (Fin.ofNat 16 (4 * c + k)))
      (fun k hk => blockByte_eq _ hc hk)
      ((regWrite_din_column _ _ _ ⟨c, hc⟩).trans (if_pos (by simp; omega)))

/-- Settles O10: each field is read off its bits. -/
theorem statusFieldsStandAtTheirBits : Obligations.StatusFieldsStandAtTheirBits := by
  unfold Obligations.StatusFieldsStandAtTheirBits
  intro s v
  have bit {i : Nat} (hi : i < 32) := getLsbD_statusWord s hi
  have err : v.extractLsb' 4 3 = s.err := extractLsb'_statusWord fun i hi => by
    rw [bit (by omega), if_neg (by omega), if_pos (by omega), Nat.add_sub_cancel_left]
  have nr : v.extractLsb' 8 4 = statusNr s := extractLsb'_statusWord fun i hi => by
    rw [bit (by omega), if_neg (by omega), if_neg (by omega), if_pos (by omega),
      Nat.add_sub_cancel_left]
  have kslen : v.extractLsb' 16 6 = statusKslen s := extractLsb'_statusWord fun i hi => by
    rw [bit (by omega), if_neg (by omega), if_neg (by omega), if_neg (by omega),
      Nat.add_sub_cancel_left]
  have reserved12 : v.extractLsb' 12 4 = 0#4 := extractLsb'_statusWord fun i hi => by
    rw [bit (by omega), if_neg (by omega), if_neg (by omega), if_pos (by omega),
      BitVec.getLsbD_of_ge _ _ (by omega), BitVec.getLsbD_zero]
  have reserved22 : v.extractLsb' 22 10 = 0#10 := extractLsb'_statusWord fun i hi => by
    rw [bit (by omega), if_neg (by omega), if_neg (by omega), if_neg (by omega),
      BitVec.getLsbD_of_ge _ _ (by omega), BitVec.getLsbD_zero]
  refine ⟨?_, ?_, ?_, err, ?_, ?_, ?_, ?_, reserved12, reserved22⟩
  · exact (bit (by decide)).trans (by simp [busy, bne, beq_eq_decide])
  · exact (bit (by decide)).trans (by simp)
  · exact (bit (by decide)).trans (by simp)
  · rw [nr, statusNr_toNat]
  · rw [kslen, statusKslen_toNat]
  · exact (bit (by decide)).trans (by simp)
  · exact (bit (by decide)).trans (by simp)

end Sys2Proof.Laws
end

section
/-! PROOFS. Acceptances and last micro-steps (spec/42_key_schedule.md R160 to R163,
spec/43_forward_round.md R180, R186, spec/44_inverse_round.md R200, R206): the counters that an
acceptance sets, the answer of each operation's last micro-step, and the named faults. -/

namespace Sys2Proof.Machine

/-! ## The counters that LOAD_KEY sets -/

/-- The key lengths in words (spec/10_state.md R33). -/
theorem keyWords_sizes {keylen : BitVec 6} (size : keylenAccepted keylen = true) :
    keyWords keylen = 4 ∨ keyWords keylen = 6 ∨ keyWords keylen = 8 := by
  have := (keylenAccepted_iff keylen).mp size
  unfold keyWords
  omega

section
variable {keylen : BitVec 6} (size : keylenAccepted keylen = true) (s : State)
include size

theorem acceptLoadKey_nk_toNat : (acceptLoadKey keylen s).nk.toNat = keyWords keylen := by
  have := keyWords_sizes size
  rw [acceptLoadKey_nk, BitVec.toNat_ofNat, Nat.mod_eq_of_lt (by omega)]

theorem acceptLoadKey_nr_toNat : (acceptLoadKey keylen s).nr.toNat = keyWords keylen + 6 := by
  have := keyWords_sizes size
  rw [acceptLoadKey_nr, BitVec.toNat_ofNat, Nat.mod_eq_of_lt (by omega)]

theorem acceptLoadKey_contextOk : contextOk (acceptLoadKey keylen s) = true := by
  rw [contextOk_iff, acceptLoadKey_nk_toNat size, acceptLoadKey_nr_toNat size]
  exact ⟨keyWords_sizes size, rfl⟩

theorem acceptLoadKey_i_toNat : (acceptLoadKey keylen s).i.toNat = keyWords keylen := by
  have := keyWords_sizes size
  rw [acceptLoadKey_i, BitVec.toNat_ofNat, Nat.mod_eq_of_lt (by omega)]

end

/-! ## The answer of a micro-step that ends its operation, and of one out of range -/

section
variable {s : State}

theorem coreStep_expand_last (phase : s.phase = .expand) (range : expandInRange s = true)
    (last : s.i.toNat + 1 = 4 * (s.nr.toNat + 1)) :
    coreStep s = .next { s with
      w := expandAt s.w s.nk.toNat s.i.toNat, keyValid := true, done := true, phase := .idle } := by
  have noMore : ¬ s.i.toNat + 1 < 4 * (s.nr.toNat + 1) := by omega
  simp only [coreStep_expand phase, expandStep, range, if_true, if_neg noMore]

theorem coreStep_enc_last (phase : s.phase = .enc) (range : encInRange s = true)
    (last : s.rnd.toNat = s.nr.toNat) :
    coreStep s = .next (deliver (finalRound s.w s.nr.toNat s.st) s) := by
  have noMore : ¬ s.rnd.toNat < s.nr.toNat := by omega
  simp only [coreStep_enc phase, encStep, range, if_true, if_neg noMore]

theorem coreStep_dec_last (phase : s.phase = .dec) (range : decInRange s = true)
    (last : s.rnd.toNat = 0) :
    coreStep s = .next (deliver (invFinalRound s.w s.st) s) := by
  have noMore : ¬ 1 ≤ s.rnd.toNat := by omega
  simp only [coreStep_dec phase, decStep, range, if_true, if_neg noMore]

theorem coreStep_expand_outOfRange (phase : s.phase = .expand) (range : expandInRange s = false) :
    coreStep s = .fault (.counterOutOfRange .expand) := by
  simp [coreStep_expand phase, expandStep, range]

theorem coreStep_enc_outOfRange (phase : s.phase = .enc) (range : encInRange s = false) :
    coreStep s = .fault (.counterOutOfRange .enc) := by
  simp [coreStep_enc phase, encStep, range]

theorem coreStep_dec_outOfRange (phase : s.phase = .dec) (range : decInRange s = false) :
    coreStep s = .fault (.counterOutOfRange .dec) := by
  simp [coreStep_dec phase, decStep, range]

theorem exec_decrypt_noContext (keylen : BitVec 6) (idle : s.phase = .idle)
    (valid : s.keyValid = true) (context : contextOk s = false) :
    exec (.decrypt keylen) s = .fault .noKeyContext := by
  have stored : contextOk (storeCtrl 3#3 keylen s) = false := context
  simp [exec, execDecrypt, unlessBusy_idle, idle, unlessNoKey_valid, valid, stored]

end

/-! ## The word of an EXPAND micro-step -/

/-- In range, the schedule store holds the word (spec/10_state.md R36). -/
theorem expandInRange_index {s : State} (range : expandInRange s = true) : s.i.toNat < 60 := by
  obtain ⟨context, -, high⟩ := (expandInRange_iff s).mp range
  obtain ⟨size, rounds⟩ := (contextOk_iff s).mp context
  omega

/-- Last or not, an EXPAND micro-step answers, and `W[i]` is the schedule word
(spec/42_key_schedule.md R162, R163). -/
theorem coreStep_expand_word {s : State} (phase : s.phase = .expand)
    (range : expandInRange s = true) :
    ∃ t, coreStep s = .next t ∧
      t.w.getD s.i.toNat 0 = expandWord s.w s.nk.toNat s.i.toNat := by
  have word : (expandAt s.w s.nk.toNat s.i.toNat).getD s.i.toNat 0 =
      expandWord s.w s.nk.toNat s.i.toNat := by
    rw [getD_expandAt _ _ _ _ (expandInRange_index range), if_pos rfl]
  obtain ⟨-, -, high⟩ := (expandInRange_iff s).mp range
  obtain more | last : s.i.toNat + 1 < 4 * (s.nr.toNat + 1) ∨
      s.i.toNat + 1 = 4 * (s.nr.toNat + 1) := by omega
  · exact ⟨_, coreStep_expand_more phase range more, word⟩
  · exact ⟨_, coreStep_expand_last phase range last, word⟩

/-- The index of the round constant: `i` is a multiple of Nk between Nk and `4(Nr+1)`
(spec/41_tables.md R136). -/
theorem rconIndex_range {s : State} (range : expandInRange s = true)
    (multiple : s.i.toNat % s.nk.toNat = 0) :
    s.i.toNat = s.i.toNat / s.nk.toNat * s.nk.toNat ∧ 1 ≤ s.i.toNat / s.nk.toNat ∧
      s.i.toNat / s.nk.toNat ≤ 10 ∧ (s.nk.toNat = 6 → s.i.toNat / s.nk.toNat ≤ 8) ∧
      (s.nk.toNat = 8 → s.i.toNat / s.nk.toNat ≤ 7) := by
  obtain ⟨context, low, high⟩ := (expandInRange_iff s).mp range
  obtain ⟨nk | nk | nk, rounds⟩ := (contextOk_iff s).mp context
  all_goals
    rw [rounds] at high
    rw [nk] at multiple low high ⊢
    omega

end Sys2Proof.Machine

/-! ## The statements -/

namespace Sys2Proof.Laws

open Sys2Proof.Machine

/-- Settles O19: the acceptance's counters and its copy of the key words. -/
theorem loadKeyAcceptanceCopiesTheKey : Obligations.LoadKeyAcceptanceCopiesTheKey := by
  unfold Obligations.LoadKeyAcceptanceCopiesTheKey
  intro s keylen idle sizes
  have size := (keylenAccepted_iff keylen).mpr sizes
  exact ⟨_, exec_loadKey_accepted keylen idle size, acceptLoadKey_nk_toNat size _,
    acceptLoadKey_nr_toNat size _, acceptLoadKey_i_toNat size _,
    fun j hj => getD_copyKey _ s.key s.w j hj, rfl⟩

/-- Settles O26: the last micro-step's answer and its one schedule write. -/
theorem lastExpandStepMakesTheKeyValid : Obligations.LastExpandStepMakesTheKeyValid := by
  unfold Obligations.LastExpandStepMakesTheKeyValid
  intro s phase range last nk i prev temp
  have word : expandWord s.w nk i = s.w.getD (i - nk) 0 ^^^ temp := by
    rw [expandWord, expandTemp_eq_shift]
  refine ⟨_, coreStep_expand_last phase range (by omega), fun j hj => ?_, rfl⟩
  rw [← word]
  exact getD_expandAt s.w nk i j hj

/-- Settles O27: the schedule word with and without a round constant, and the constant's index. -/
theorem roundConstantIndexIsOneToTen : Obligations.RoundConstantIndexIsOneToTen := by
  unfold Obligations.RoundConstantIndexIsOneToTen
  intro s phase range nk i prev
  obtain ⟨t, run, word⟩ := coreStep_expand_word phase range
  rw [expandWord, expandTemp_eq_shift] at word
  refine ⟨t, run, fun multiple => ?_, fun between => ?_⟩
  · obtain ⟨index, low, high, high6, high8⟩ := rconIndex_range range multiple
    refine ⟨i / nk, index, low, high, high6, high8, ?_⟩
    rw [word, if_pos multiple, BitVec.xor_assoc]
  · rw [word, if_neg between]

/-- Settles O21: the acceptance's answer, its S column by column. -/
theorem encryptAcceptanceAddsRoundKeyZero : Obligations.EncryptAcceptanceAddsRoundKeyZero := by
  unfold Obligations.EncryptAcceptanceAddsRoundKeyZero
  intro s keylen idle valid
  exact ⟨_, exec_encrypt_accepted keylen idle valid, fun c => by simp, rfl⟩

/-- Settles O22: the acceptance's answer, its S column by column, and the predecessor of Nr. -/
theorem decryptAcceptanceAddsTheLastRoundKey :
    Obligations.DecryptAcceptanceAddsTheLastRoundKey := by
  unfold Obligations.DecryptAcceptanceAddsTheLastRoundKey
  intro s keylen idle valid context
  obtain ⟨-, rounds⟩ := (contextOk_iff s).mp context
  exact ⟨_, exec_decrypt_accepted keylen idle valid context, fun c => by simp,
    toNat_sub_one_four (r := s.nr) (by omega), rfl⟩

/-- Settles O24: the faults of the three phases and of DECRYPT. -/
theorem assertionsFaultByName : Obligations.AssertionsFaultByName := by
  unfold Obligations.AssertionsFaultByName
  exact fun s keylen => ⟨coreStep_expand_outOfRange, coreStep_enc_outOfRange,
    coreStep_dec_outOfRange, exec_decrypt_noContext keylen⟩

/-- Settles O29: the last micro-step's answer, its round read byte by byte. -/
theorem lastEncStepDeliversTheBlock : Obligations.LastEncStepDeliversTheBlock := by
  unfold Obligations.LastEncStepDeliversTheBlock
  intro s phase range last
  refine ⟨_, coreStep_enc_last phase range last, rfl, fun c r => ?_⟩
  rw [deliver_st, finalRound, cell_addRoundKey, cell_shiftRows, cell_subBytes]

/-- Settles O31: the last micro-step's answer, its round read byte by byte. -/
theorem lastDecStepDeliversTheBlock : Obligations.LastDecStepDeliversTheBlock := by
  unfold Obligations.LastDecStepDeliversTheBlock
  intro s phase range last
  refine ⟨_, coreStep_dec_last phase range last, rfl, fun c r => ?_⟩
  rw [deliver_st, invFinalRound, cell_addRoundKey, cell_invSubBytes, cell_invShiftRows,
    Nat.mul_zero, Nat.zero_add]

end Sys2Proof.Laws
end

section
/-! PROOFS. The invariant (spec/10_state.md R38): reset meets it, each effect of a transaction and
of a micro-step keeps it, and under it no step stops; so no run from reset stops. -/

namespace Sys2Proof.Machine

/-! ## The schedule grows by one word -/

/-- A schedule step extends the expanded words by one (spec/42_key_schedule.md R162, R164
item 5). -/
theorem ScheduleUpTo.expandAt {w : Vector Word 60} {nk i : Nat} (h : ScheduleUpTo w nk i)
    (pos : 0 < nk) (low : nk ≤ i) (high : i < 60) : ScheduleUpTo (expandAt w nk i) nk (i + 1) := by
  intro j jLow jHigh
  have below : ∀ l, l < j → (Machine.expandAt w nk i).getD l 0 = w.getD l 0 := fun l hl => by
    rw [getD_expandAt _ _ _ _ (by omega), if_neg (by omega)]
  rw [expandWord_congr pos jLow below, getD_expandAt _ _ _ _ (by omega)]
  split_ifs with last
  · rw [last]
  · exact h j jLow (by omega)

/-! ## Elements that the invariant does not speak of -/

/-- The invariant speaks of none of CTRL, KEY, DIN, DOUT and the two lists. -/
theorem BlockInv.setInterface {s : State} (h : BlockInv s) (ctrlCmd : BitVec 3)
    (ctrlKeylen : BitVec 6) (key : Vector Word 8) (din : Block) (events : List Event)
    (responses : List Word) :
    BlockInv { s with
      ctrlCmd := ctrlCmd, ctrlKeylen := ctrlKeylen, key := key, din := din, events := events,
      responses := responses } :=
  ⟨h.errProduced, h.busyNotDone, h.expanding, h.encrypting, h.decrypting, h.keyContext⟩

theorem ErrCode.code_produced (e : ErrCode) :
    e.code = 0#3 ∨ e.code = 1#3 ∨ e.code = 3#3 ∨ e.code = 4#3 ∨ e.code = 5#3 := by
  cases e <;> decide

/-! ## Every effect keeps the invariant -/

theorem blockInv_reset : BlockInv State.reset where
  errProduced := .inl rfl
  busyNotDone running := absurd rfl running
  expanding phase := nomatch phase
  encrypting phase := nomatch phase
  decrypting phase := nomatch phase
  keyContext valid := nomatch valid

theorem BlockInv.raise {s : State} (h : BlockInv s) (e : ErrCode) : BlockInv (raise e s) :=
  { h with errProduced := e.code_produced }

/-- Acceptance of LOAD_KEY starts EXPAND at the first index of its range. -/
theorem blockInv_acceptLoadKey {keylen : BitVec 6} (size : keylenAccepted keylen = true)
    (s : State) : BlockInv (acceptLoadKey keylen s) where
  errProduced := .inl rfl
  busyNotDone _ := rfl
  expanding _ := by
    have nk := acceptLoadKey_nk_toNat size s
    have nr := acceptLoadKey_nr_toNat size s
    have i := acceptLoadKey_i_toNat size s
    exact ⟨rfl, (expandInRange_iff _).mpr ⟨acceptLoadKey_contextOk size s, by omega, by omega⟩,
      fun j low high => by omega⟩
  encrypting phase := nomatch phase
  decrypting phase := nomatch phase
  keyContext valid := nomatch valid

/-- Acceptance of ENCRYPT starts ENC at round 1. -/
theorem BlockInv.acceptEncrypt {s : State} (h : BlockInv s) (valid : s.keyValid = true) :
    BlockInv (acceptEncrypt s) where
  errProduced := .inl rfl
  busyNotDone _ := rfl
  expanding phase := nomatch phase
  encrypting _ := by
    obtain ⟨context, -⟩ := h.keyContext valid
    obtain ⟨-, rounds⟩ := (contextOk_iff s).mp context
    have some_round : 1 ≤ (Machine.acceptEncrypt s).nr.toNat := by rw [acceptEncrypt_nr]; omega
    exact ⟨valid, (encInRange_iff _).mpr ⟨context, le_refl 1, some_round⟩⟩
  decrypting phase := nomatch phase
  keyContext := h.keyContext

/-- Acceptance of DECRYPT starts DEC at round Nr-1. -/
theorem BlockInv.acceptDecrypt {s : State} (h : BlockInv s) (valid : s.keyValid = true) :
    BlockInv (acceptDecrypt s) where
  errProduced := .inl rfl
  busyNotDone _ := rfl
  expanding phase := nomatch phase
  encrypting phase := nomatch phase
  decrypting _ := by
    obtain ⟨context, -⟩ := h.keyContext valid
    obtain ⟨-, rounds⟩ := (contextOk_iff s).mp context
    have rnd : (s.nr - 1#4).toNat = s.nr.toNat - 1 := toNat_sub_one_four (by omega)
    refine ⟨valid, (decInRange_iff _).mpr ⟨context, ?_⟩⟩
    rw [acceptDecrypt_rnd, acceptDecrypt_nr]
    omega
  keyContext := h.keyContext

/-- An idle block without a key satisfies the invariant if its ERR does. -/
theorem blockInv_idle_noKey {s : State} (idle : s.phase = .idle) (invalid : s.keyValid = false)
    (err : s.err = 0#3) : BlockInv s where
  errProduced := .inl err
  busyNotDone running := absurd idle running
  expanding phase := nomatch idle.symm.trans phase
  encrypting phase := nomatch idle.symm.trans phase
  decrypting phase := nomatch idle.symm.trans phase
  keyContext valid := nomatch invalid.symm.trans valid

theorem HostEffect.blockInv {s t : State} (effect : HostEffect s t) (h : BlockInv s) :
    BlockInv t := by
  have stored (cmd : BitVec 3) (keylen : BitVec 6) : BlockInv (storeCtrl cmd keylen s) :=
    h.setInterface ..
  cases effect with
  | read v => exact h.setInterface ..
  | write idx v => rw [regWrite_frame]; exact h.setInterface ..
  | ignored => exact h
  | nop cmd keylen => exact stored ..
  | rejected e cmd keylen => exact (stored ..).raise e
  | loadKey cmd keylen idle size => exact blockInv_acceptLoadKey size _
  | encrypt cmd keylen idle valid => exact (stored ..).acceptEncrypt valid
  | decrypt cmd keylen idle valid context => exact (stored ..).acceptDecrypt valid
  | clearKey cmd keylen idle => exact blockInv_idle_noKey idle rfl rfl

/-- The end of an ENCRYPT or DECRYPT: the block is idle with the key it had. -/
theorem BlockInv.deliver {s : State} (h : BlockInv s) (b : Block) : BlockInv (deliver b s) where
  errProduced := h.errProduced
  busyNotDone running := absurd rfl running
  expanding phase := nomatch phase
  encrypting phase := nomatch phase
  decrypting phase := nomatch phase
  keyContext := h.keyContext

theorem CoreEffect.blockInv {s t : State} (effect : CoreEffect s t) (h : BlockInv s) :
    BlockInv t := by
  cases effect with
  | wait idle => exact h
  | expand phase range more =>
    obtain ⟨invalid, -, schedule⟩ := h.expanding phase
    obtain ⟨context, low, -⟩ := (expandInRange_iff s).mp range
    obtain ⟨size, -⟩ := (contextOk_iff s).mp context
    have next := expandInRange_next_index range
    have grown := schedule.expandAt (by omega) low (expandInRange_index range)
    exact
      { h with
        expanding := fun _ => ⟨invalid,
          (expandInRange_iff _).mpr ⟨context, by dsimp only; omega, by dsimp only; omega⟩, by
            dsimp only
            rwa [next]⟩
        encrypting := fun enc => nomatch phase.symm.trans enc
        decrypting := fun dec => nomatch phase.symm.trans dec
        keyContext := fun valid => nomatch invalid.symm.trans valid }
  | expandLast phase range last =>
    obtain ⟨-, -, schedule⟩ := h.expanding phase
    obtain ⟨context, low, -⟩ := (expandInRange_iff s).mp range
    obtain ⟨size, -⟩ := (contextOk_iff s).mp context
    have grown := schedule.expandAt (by omega) low (expandInRange_index range)
    exact
      { errProduced := h.errProduced
        busyNotDone := fun running => absurd rfl running
        expanding := fun phase => nomatch phase
        encrypting := fun phase => nomatch phase
        decrypting := fun phase => nomatch phase
        keyContext := fun _ => ⟨context, last ▸ grown⟩ }
  | enc phase range more =>
    obtain ⟨valid, -⟩ := h.encrypting phase
    obtain ⟨context, low, -⟩ := (encInRange_iff s).mp range
    have next : (s.rnd + 1#4).toNat = s.rnd.toNat + 1 := toNat_add_one_four (by omega)
    exact
      { h with
        expanding := fun expand => nomatch phase.symm.trans expand
        encrypting := fun _ => ⟨valid,
          (encInRange_iff _).mpr ⟨context, by dsimp only; omega, by dsimp only; omega⟩⟩
        decrypting := fun dec => nomatch phase.symm.trans dec }
  | encLast phase range last => exact h.deliver _
  | dec phase range more =>
    obtain ⟨valid, -⟩ := h.decrypting phase
    obtain ⟨context, high⟩ := (decInRange_iff s).mp range
    have next := toNat_sub_one_four more
    exact
      { h with
        expanding := fun expand => nomatch phase.symm.trans expand
        encrypting := fun enc => nomatch phase.symm.trans enc
        decrypting := fun _ => ⟨valid, (decInRange_iff _).mpr ⟨context, by dsimp only; omega⟩⟩ }
  | decLast phase range last => exact h.deliver _

theorem StepEffect.blockInv {s t : State} (effect : StepEffect s t) (h : BlockInv s) :
    BlockInv t := by
  cases effect with
  | quiet pending effect => exact effect.blockInv h
  | host ht rest pending run effect => exact effect.blockInv (h.setInterface ..)
  | core rest pending effect => exact effect.blockInv (h.setInterface ..)
  | reset rest pending => exact blockInv_reset.setInterface ..

/-! ## Under the invariant nothing stops -/

theorem BlockInv.coreStep_next {s : State} (h : BlockInv s) : ∃ t, coreStep s = .next t := by
  cases run : coreStep s with
  | next t => exact ⟨t, rfl⟩
  | refused r => exact absurd run (coreStep_not_refused s r)
  | fault r =>
    obtain ⟨phase, outside⟩ | ⟨phase, outside⟩ | ⟨phase, outside⟩ := coreStep_fault run
    · obtain ⟨-, range, -⟩ := h.expanding phase
      exact nomatch range.symm.trans outside
    · obtain ⟨-, range⟩ := h.encrypting phase
      exact nomatch range.symm.trans outside
    · obtain ⟨-, range⟩ := h.decrypting phase
      exact nomatch range.symm.trans outside

theorem BlockInv.exec_next {s : State} (h : BlockInv s) (ins : Instr) :
    ∃ t, exec ins s = .next t := by
  cases run : exec ins s with
  | next t => exact ⟨t, rfl⟩
  | refused r => exact absurd run (exec_not_refused ins s r)
  | fault r =>
    obtain ⟨valid, noContext, -⟩ := exec_fault run
    obtain ⟨context, -⟩ := h.keyContext valid
    exact nomatch context.symm.trans noContext

theorem BlockInv.step_next {s : State} (h : BlockInv s) : ∃ t, step s = .next t := by
  match pending : s.events with
  | [] => rw [step_quiet pending]; exact h.coreStep_next
  | .host ht :: rest => rw [step_host pending]; exact (h.setInterface ..).exec_next _
  | .core :: rest => rw [step_core pending]; exact (h.setInterface ..).coreStep_next
  | .reset :: rest => exact ⟨_, step_reset pending⟩

theorem runSteps_succ {s t : State} (run : step s = .next t) (k : Nat) :
    runSteps (k + 1) s = runSteps k t := by
  rw [runSteps, run]

theorem BlockInv.safeRun {s : State} (h : BlockInv s) : SafeRun s := by
  intro k
  induction k generalizing s with
  | zero => exact ⟨s, rfl⟩
  | succ k ih =>
    obtain ⟨t, run⟩ := h.step_next
    rw [runSteps_succ run]
    exact ih ((Machine.step_next run).blockInv h)

end Sys2Proof.Machine

/-! ## The statements -/

namespace Sys2Proof.Laws

open Sys2Proof.Machine

/-- Settles O33: every effect that a step can have keeps the invariant. -/
theorem invariantKeptByEveryStep : Obligations.InvariantKeptByEveryStep := by
  unfold Obligations.InvariantKeptByEveryStep
  exact fun s t inv run => (step_next run).blockInv inv

/-- Settles O32: after reset the block is idle and has no key. -/
theorem resetStateMeetsTheInvariant : Obligations.ResetStateMeetsTheInvariant := blockInv_reset

/-- Settles O34: a run from reset meets the invariant at every step, and so never stops. -/
theorem runsFromResetNeverStop : Obligations.RunsFromResetNeverStop := by
  unfold Obligations.RunsFromResetNeverStop
  exact fun es => (blockInv_reset.setInterface ..).safeRun

end Sys2Proof.Laws
end

section
/-! PROOFS. Rules about the whole machine (spec/10_state.md R24 to R38): which step can change the
schedule, DOUT, ERR, KEY, Nk and Nr, and the phase. -/

namespace Sys2Proof.Machine

/-! ## What a transaction does, with its instruction -/

/-- What one transaction can do, told apart by what it does to KEY, DIN, the key context and the
operation in flight (spec/40_host_interface.md R101 to R109). -/
inductive InstrEffect (s : State) : Instr → State → Prop where
  /-- A read, an ignored write, a NOP or a rejection: the CTRL fields, ERR and the response. -/
  | report {ins : Instr} {t : State}
      (frame : t = { s with
        ctrlCmd := t.ctrlCmd, ctrlKeylen := t.ctrlKeylen, err := t.err,
        responses := t.responses }) : InstrEffect s ins t
  /-- WRITE_KEY, WRITE_DIN. -/
  | write {ins : Instr} (idx : BitVec 5) (v : Word)
      (isWrite : ins = .writeKey idx v ∨ ins = .writeDin idx v) :
      InstrEffect s ins (regWrite idx v s)
  /-- LOAD_KEY accepted. -/
  | loadKey (keylen : BitVec 6) (idle : s.phase = .idle) (size : keylenAccepted keylen = true) :
      InstrEffect s (.loadKey keylen) (acceptLoadKey keylen (storeCtrl 1#3 keylen s))
  /-- ENCRYPT accepted. -/
  | encrypt (keylen : BitVec 6) (idle : s.phase = .idle) (valid : s.keyValid = true) :
      InstrEffect s (.encrypt keylen) (acceptEncrypt (storeCtrl 2#3 keylen s))
  /-- DECRYPT accepted. -/
  | decrypt (keylen : BitVec 6) (idle : s.phase = .idle) (valid : s.keyValid = true)
      (context : contextOk s = true) :
      InstrEffect s (.decrypt keylen) (acceptDecrypt (storeCtrl 3#3 keylen s))
  /-- CLEAR_KEY accepted. -/
  | clearKey (keylen : BitVec 6) (idle : s.phase = .idle) :
      InstrEffect s (.clearKey keylen) (acceptClearKey (storeCtrl 4#3 keylen s))

section
variable {s t : State} {keylen : BitVec 6}

theorem exec_loadKey_effect (run : exec (.loadKey keylen) s = .next t) :
    InstrEffect s (.loadKey keylen) t := by
  by_cases idle : s.phase = .idle
  · cases size : keylenAccepted keylen
    · rw [exec_loadKey_badSize keylen idle size] at run; cases run; exact .report rfl
    · rw [exec_loadKey_accepted keylen idle size] at run; cases run; exact .loadKey _ idle size
  · rw [exec_loadKey_busy keylen idle] at run; cases run; exact .report rfl

theorem exec_encrypt_effect (run : exec (.encrypt keylen) s = .next t) :
    InstrEffect s (.encrypt keylen) t := by
  by_cases idle : s.phase = .idle
  · cases valid : s.keyValid
    · rw [exec_encrypt_noKey keylen idle valid] at run; cases run; exact .report rfl
    · rw [exec_encrypt_accepted keylen idle valid] at run; cases run; exact .encrypt _ idle valid
  · rw [exec_encrypt_busy keylen idle] at run; cases run; exact .report rfl

theorem exec_decrypt_effect (run : exec (.decrypt keylen) s = .next t) :
    InstrEffect s (.decrypt keylen) t := by
  by_cases idle : s.phase = .idle
  · cases valid : s.keyValid
    · rw [exec_decrypt_noKey keylen idle valid] at run; cases run; exact .report rfl
    · cases context : contextOk s
      · rw [exec_decrypt_noContext keylen idle valid context] at run; cases run
      · rw [exec_decrypt_accepted keylen idle valid context] at run; cases run
        exact .decrypt _ idle valid context
  · rw [exec_decrypt_busy keylen idle] at run; cases run; exact .report rfl

theorem exec_clearKey_effect (run : exec (.clearKey keylen) s = .next t) :
    InstrEffect s (.clearKey keylen) t := by
  by_cases idle : s.phase = .idle
  · rw [exec_clearKey_accepted keylen idle] at run; cases run; exact .clearKey _ idle
  · rw [exec_clearKey_busy keylen idle] at run; cases run; exact .report rfl

end

/-- A transaction that answers a next state does one of the things listed. -/
theorem exec_effect {ins : Instr} {s t : State} (run : exec ins s = .next t) :
    InstrEffect s ins t := by
  cases ins with
  | loadKey keylen => exact exec_loadKey_effect run
  | encrypt keylen => exact exec_encrypt_effect run
  | decrypt keylen => exact exec_decrypt_effect run
  | clearKey keylen => exact exec_clearKey_effect run
  | writeKey idx data => cases run; exact .write _ _ (.inl rfl)
  | writeDin idx data => cases run; exact .write _ _ (.inr rfl)
  | readReg idx
  | nop keylen
  | illegalCmd5 keylen
  | illegalCmd6or7 cmd keylen
  | writeStatus
  | writeRsvd2to3 idx
  | writeRsvd4to7 idx
  | writeDout idx
  | writeRsvd24to31 idx => cases run; exact .report rfl

/-! ## The next event -/

theorem nextTransaction_iff {s : State} {ht : HtWord} :
    nextTransaction s = some ht ↔ ∃ rest, s.events = .host ht :: rest := by
  unfold nextTransaction
  split <;> simp_all

/-- The core's turn, whether its event is pending or nothing is. -/
theorem coreTurn_effect {s t : State} (turn : nextIsCore s) (run : step s = .next t) :
    ∃ rest, CoreEffect { s with events := rest } t := by
  obtain pending | ⟨rest, pending⟩ := turn
  · exact ⟨[], coreStep_next ((step_coreTurn (.inr ⟨pending, rfl⟩)).symm.trans run)⟩
  · exact ⟨rest, coreStep_next ((step_core pending).symm.trans run)⟩

/-- A step, told apart by who takes it. -/
theorem step_effect {s t : State} (run : step s = .next t) :
    (∃ ht rest, nextTransaction s = some ht ∧
      InstrEffect { s with events := rest } (decodeHt ht) t) ∨
    (nextIsCore s ∧ ∃ rest, CoreEffect { s with events := rest } t) ∨
    (nextIsReset s ∧ ∃ rest, t = resetBlock { s with events := rest }) := by
  cases step_next run with
  | quiet pending effect => exact .inr (.inl ⟨.inl pending, coreTurn_effect (.inl pending) run⟩)
  | host ht rest pending run effect =>
    exact .inl ⟨ht, rest, nextTransaction_iff.mpr ⟨rest, pending⟩, exec_effect run⟩
  | core rest pending effect => exact .inr (.inl ⟨.inr ⟨rest, pending⟩, rest, effect⟩)
  | reset rest pending => exact .inr (.inr ⟨⟨rest, pending⟩, rest, rfl⟩)

/-! ## What an effect leaves unchanged -/

section
variable {s t : State} {ins : Instr}

theorem InstrEffect.dout_eq (effect : InstrEffect s ins t) : t.dout = s.dout := by
  cases effect with
  | report frame => rw [frame]
  | write idx v isWrite => exact regWrite_dout ..
  | loadKey | encrypt | decrypt | clearKey => rfl

theorem CoreEffect.key_eq (effect : CoreEffect s t) : t.key = s.key := by
  cases effect <;> rfl

theorem CoreEffect.nk_eq (effect : CoreEffect s t) : t.nk = s.nk := by
  cases effect <;> rfl

theorem CoreEffect.nr_eq (effect : CoreEffect s t) : t.nr = s.nr := by
  cases effect <;> rfl

/-- The schedule, Nk and Nr stay where the key is valid before and after a transaction
(spec/10_state.md R38 item 4). -/
theorem InstrEffect.schedule_eq (effect : InstrEffect s ins t) (valid : t.keyValid = true) :
    t.w = s.w ∧ t.nk = s.nk ∧ t.nr = s.nr := by
  cases effect with
  | report frame => rw [frame]; exact ⟨rfl, rfl, rfl⟩
  | write idx v isWrite => exact ⟨regWrite_w .., regWrite_nk .., regWrite_nr ..⟩
  | encrypt | decrypt => exact ⟨rfl, rfl, rfl⟩
  | loadKey | clearKey => exact nomatch valid

/-- No micro-step but EXPAND's writes the schedule (spec/10_state.md R32). -/
theorem CoreEffect.schedule_eq (effect : CoreEffect s t) (noExpand : s.phase ≠ .expand) :
    t.w = s.w := by
  cases effect with
  | expand phase | expandLast phase => exact absurd phase noExpand
  | wait | enc | encLast | dec | decLast => rfl

/-- DOUT changes only where the core delivers a block (spec/10_state.md R31). -/
theorem CoreEffect.dout_changed (effect : CoreEffect s t) (changed : t.dout ≠ s.dout) :
    ((s.phase = .enc ∧ s.rnd.toNat = s.nr.toNat) ∨ (s.phase = .dec ∧ s.rnd.toNat = 0)) ∧
      t.phase = .idle ∧ t.done = true := by
  cases effect with
  | encLast phase range last => exact ⟨.inl ⟨phase, last⟩, rfl, rfl⟩
  | decLast phase range last => exact ⟨.inr ⟨phase, last⟩, rfl, rfl⟩
  | wait | expand | expandLast | enc | dec => exact absurd rfl changed

/-- A micro-step leaves an idle block idle (spec/10_state.md R34). -/
theorem CoreEffect.idle (effect : CoreEffect s t) (idle : s.phase = .idle) : t.phase = .idle := by
  cases effect with
  | wait => exact idle
  | expand phase | enc phase | dec phase => exact idle
  | expandLast | encLast | decLast => rfl

/-- What the last micro-step of an operation reports (spec/20_memory.md R69,
spec/60_exceptions.md R251). -/
theorem CoreEffect.completion (effect : CoreEffect s t) (running : s.phase ≠ .idle)
    (idle : t.phase = .idle) :
    t.done = true ∧ t.err = s.err ∧
      (s.phase = .expand → t.keyValid = true ∧ t.dout = s.dout) ∧
      (s.phase ≠ .expand → t.dout = t.st ∧ t.keyValid = s.keyValid ∧ t.w = s.w) := by
  cases effect with
  | expandLast phase => exact ⟨rfl, rfl, fun _ => ⟨rfl, rfl⟩, fun other => absurd phase other⟩
  | encLast phase | decLast phase =>
    exact ⟨rfl, rfl, fun expand => (nomatch phase.symm.trans expand), fun _ => ⟨rfl, rfl, rfl⟩⟩
  | wait | expand | enc | dec => exact absurd idle running

/-- A transaction leaves a busy block in its phase (spec/10_state.md R34). -/
theorem InstrEffect.phase_eq_of_busy (effect : InstrEffect s ins t) (running : s.phase ≠ .idle) :
    t.phase = s.phase := by
  cases effect with
  | report frame => rw [frame]
  | write idx v isWrite => exact regWrite_phase ..
  | loadKey _ idle | encrypt _ idle | decrypt _ idle | clearKey _ idle =>
    exact absurd idle running

end

/-! ## Nk, Nr and the phase -/

section
variable {s t : State} {ins : Instr}

theorem mem_sizes_of_keylenAccepted {keylen : BitVec 6} (size : keylenAccepted keylen = true) :
    keylen.toNat ∈ [16, 24, 32] := by
  simpa using (keylenAccepted_iff keylen).mp size

/-- Nk and Nr change only by an accepted LOAD_KEY (spec/10_state.md R33). -/
theorem InstrEffect.context_changed (effect : InstrEffect s ins t)
    (changed : t.nk ≠ s.nk ∨ t.nr ≠ s.nr) :
    ∃ keylen, ins = .loadKey keylen ∧ s.phase = .idle ∧ keylen.toNat ∈ [16, 24, 32] ∧
      t.nk.toNat = keylen.toNat / 4 ∧ t.nr.toNat = t.nk.toNat + 6 := by
  cases effect with
  | report frame => rw [frame] at changed; simp at changed
  | write idx v isWrite => simp at changed
  | encrypt | decrypt | clearKey => simp at changed
  | loadKey keylen idle size =>
    have nk := acceptLoadKey_nk_toNat size (storeCtrl 1#3 keylen s)
    have nr := acceptLoadKey_nr_toNat size (storeCtrl 1#3 keylen s)
    exact ⟨keylen, rfl, idle, mem_sizes_of_keylenAccepted size, nk, nr.trans (by rw [nk])⟩

/-- Only an accepted command takes the phase from IDLE (spec/10_state.md R24, R34). -/
theorem InstrEffect.leaves_idle (effect : InstrEffect s ins t) (idle : s.phase = .idle)
    (running : t.phase ≠ .idle) :
    ∃ keylen,
      (ins = .loadKey keylen ∧ keylen.toNat ∈ [16, 24, 32] ∧ t.phase = .expand) ∨
      (ins = .encrypt keylen ∧ s.keyValid = true ∧ t.phase = .enc) ∨
      (ins = .decrypt keylen ∧ s.keyValid = true ∧ t.phase = .dec) := by
  cases effect with
  | report frame => rw [frame] at running; exact absurd idle running
  | write idx v isWrite => exact absurd ((regWrite_phase ..).trans idle) running
  | loadKey keylen _ size => exact ⟨keylen, .inl ⟨rfl, mem_sizes_of_keylenAccepted size, rfl⟩⟩
  | encrypt keylen _ valid => exact ⟨keylen, .inr (.inl ⟨rfl, valid, rfl⟩)⟩
  | decrypt keylen _ valid => exact ⟨keylen, .inr (.inr ⟨rfl, valid, rfl⟩)⟩
  | clearKey => exact absurd idle running

end

/-! ## KEY -/

/-- A write changes the KEY register of its index only, which it sets. -/
theorem regWrite_key_changed {idx : BitVec 5} {v : Word} {s : State} {j : Nat}
    (changed : (regWrite idx v s).key.getD j 0 ≠ s.key.getD j 0) :
    j < 8 ∧ idx.toNat = 8 + j ∧ (regWrite idx v s).key.getD j 0 = v := by
  have hj : j < 8 := by
    by_contra outside
    exact changed (by simp [Vector.getD, outside])
  rw [regWrite_key_getD idx v s hj] at changed ⊢
  split_ifs at changed ⊢ with named
  · exact ⟨hj, named, rfl⟩
  · exact absurd rfl changed

/-- A KEY register changes only by WRITE_KEY and CLEAR_KEY (spec/10_state.md R28). -/
theorem InstrEffect.key_changed {s t : State} {ins : Instr} {j : Nat}
    (effect : InstrEffect s ins t) (wf : ins.wellFormed = true)
    (changed : t.key.getD j 0 ≠ s.key.getD j 0) :
    (∃ idx data, ins = .writeKey idx data ∧ idx.toNat = 8 + j ∧ t.key.getD j 0 = data) ∨
      (∃ keylen, ins = .clearKey keylen ∧ s.phase = .idle ∧ t.key.getD j 0 = 0) := by
  cases effect with
  | report frame => rw [frame] at changed; exact absurd rfl changed
  | write idx v isWrite =>
    obtain ⟨hj, named, set⟩ := regWrite_key_changed changed
    obtain rfl | rfl := isWrite
    · exact .inl ⟨idx, v, rfl, named, set⟩
    · simp only [Instr.wellFormed, idxIn, Bool.and_eq_true, decide_eq_true_eq] at wf
      omega
  | loadKey | encrypt | decrypt => exact absurd rfl changed
  | clearKey keylen idle => exact .inr ⟨keylen, rfl, idle, getD_replicate 0 j⟩

/-! ## ERR -/

/-- What is known of an answer holds of the next state that is answered. -/
theorem of_next {answer : Result} {t : State} {P : State → Prop}
    (known : ∃ t, answer = .next t ∧ P t) (run : answer = .next t) : P t := by
  obtain ⟨t', run', holds⟩ := known
  cases run.symm.trans run'
  exact holds

section
variable {s t : State} {cmd : BitVec 3} {keylen : BitVec 6}

/-- ERR after a command write (spec/10_state.md R27). -/
theorem ReportsFirstCheck.err_eq (reports : ReportsFirstCheck s cmd keylen t) :
    t.err = if cmd = 0#3 then s.err else firstCheck s cmd keylen := by
  obtain ⟨-, -, nop, rejected, accepted⟩ := reports
  split_ifs with command
  · rw [nop command]
  · by_cases check : firstCheck s cmd keylen = 0#3
    · rw [check, (accepted command check).1]
    · rw [rejected command check]

/-- A DECRYPT that answers had the key context, or was rejected before it was needed. -/
theorem decrypt_reports_of_next (run : exec (.decrypt keylen) s = .next t) :
    ReportsFirstCheck s 3#3 keylen t := by
  by_cases context : s.keyValid = true → contextOk s = true
  · exact of_next (decrypt_reports keylen context) run
  · obtain ⟨valid, noContext⟩ := Classical.not_imp.mp context
    have running : s.phase ≠ .idle := fun idle =>
      nomatch run.symm.trans
        (exec_decrypt_noContext keylen idle valid (Bool.eq_false_iff.mpr noContext))
    cases run.symm.trans (exec_decrypt_busy keylen running)
    exact reports_busy keylen (by decide) (by decide) running

end

/-- A command write that answers reports the first check (spec/40_host_interface.md R106). -/
theorem decodeCommand_reports_of_next {s t : State} {data : Word}
    (run : exec (decodeCommand data) s = .next t) :
    ReportsFirstCheck s (cwCmd data) (cwKeylen data) t := by
  unfold decodeCommand at run
  dsimp only at run
  split_ifs at run with nop loadKey encrypt decrypt clearKey illegal5
  · rw [nop]; exact of_next ⟨_, exec_nop .., reports_nop _⟩ run
  · rw [loadKey]; exact of_next (loadKey_reports _) run
  · rw [encrypt]; exact of_next (encrypt_reports _) run
  · rw [decrypt]; exact decrypt_reports_of_next run
  · rw [clearKey]; exact of_next (clearKey_reports _) run
  · rw [illegal5]; exact of_next ⟨_, exec_illegalCmd5 .., reports_illegal _ (by decide)⟩ run
  · exact of_next ⟨_, exec_illegalCmd6or7 .., reports_illegal _ (by bv_omega)⟩ run

/-- A transaction that is no command leaves ERR (spec/10_state.md R27). -/
theorem err_eq_of_noCommand {s t : State} {ht : HtWord} (noCtrl : ht.extractLsb' 32 6 ≠ 0x20#6)
    (run : exec (decodeHt ht) s = .next t) : t.err = s.err := by
  obtain ⟨idx, ins⟩ | ⟨idx, data, ins⟩ | ⟨idx, data, ins⟩ | ins | ⟨idx, ins⟩ | ⟨idx, ins⟩ |
    ⟨idx, ins⟩ | ⟨idx, ins⟩ := decodeHt_noCommand noCtrl
  case inr.inl | inr.inr.inl => rw [ins] at run; cases run; exact regWrite_err ..
  all_goals rw [ins] at run; cases run; rfl

/-- ERR after a command write in a step (spec/10_state.md R27). -/
theorem err_eq_of_command {s t : State} {ht : HtWord} (ctrl : ht.extractLsb' 32 6 = 0x20#6)
    (run : exec (decodeHt ht) s = .next t) :
    t.err = if ht.extractLsb' 0 3 = 0#3 then s.err
      else firstCheck s (ht.extractLsb' 0 3) (ht.extractLsb' 8 6) := by
  rw [decodeHt_command ctrl] at run
  rw [← cwCmd_htData, ← cwKeylen_htData]
  exact (decodeCommand_reports_of_next run).err_eq

end Sys2Proof.Machine

/-! ## The statements -/

namespace Sys2Proof.Laws

open Sys2Proof.Machine

/-- Settles O35: by the effect of a transaction, of a micro-step and of a reset. -/
theorem scheduleIsFixedWhileTheKeyIsValid : Obligations.ScheduleIsFixedWhileTheKeyIsValid := by
  unfold Obligations.ScheduleIsFixedWhileTheKeyIsValid
  intro s t expandNoKey run valid valid'
  obtain ⟨ht, rest, -, effect⟩ | ⟨-, rest, effect⟩ | ⟨-, rest, rfl⟩ := step_effect run
  · exact effect.schedule_eq valid'
  · have noExpand : s.phase ≠ .expand := fun expand => nomatch valid.symm.trans (expandNoKey expand)
    exact ⟨effect.schedule_eq noExpand, effect.nk_eq, effect.nr_eq⟩
  · exact nomatch valid'

/-- Settles O36: no transaction writes DOUT, and of the micro-steps only the last of ENC and DEC. -/
theorem onlyACompletedBlockChangesDout : Obligations.OnlyACompletedBlockChangesDout := by
  unfold Obligations.OnlyACompletedBlockChangesDout
  intro s t run changed
  obtain ⟨ht, rest, -, effect⟩ | ⟨turn, rest, effect⟩ | ⟨reset, -⟩ := step_effect run
  · exact absurd effect.dout_eq changed
  · obtain ⟨last, completed⟩ := effect.dout_changed changed
    exact .inr ⟨⟨turn, last⟩, completed⟩
  · exact .inl reset

/-- Settles O37: a command write reports the first check, and nothing else but reset writes ERR. -/
theorem errIsTheLastCommandsOutcome : Obligations.ErrIsTheLastCommandsOutcome := by
  unfold Obligations.ErrIsTheLastCommandsOutcome
  intro s t run
  have transaction {ht : HtWord} (next : nextTransaction s = some ht) :
      ∃ rest, exec (decodeHt ht) { s with events := rest } = .next t := by
    obtain ⟨rest, pending⟩ := nextTransaction_iff.mp next
    exact ⟨rest, (step_host pending).symm.trans run⟩
  refine ⟨fun ht next ctrl command => ?_, fun ht next other => ?_, fun turn => ?_, ?_⟩
  · obtain ⟨rest, run⟩ := transaction next
    rw [err_eq_of_command ctrl run, if_neg command, firstCheck]
    split_ifs <;> simp_all
  · obtain ⟨rest, run⟩ := transaction next
    by_cases ctrl : ht.extractLsb' 32 6 = 0x20#6
    · rw [err_eq_of_command ctrl run, if_pos (other.resolve_left (not_not_intro ctrl))]
    · exact (err_eq_of_noCommand ctrl run).trans rfl
  · obtain ⟨rest, effect⟩ := coreTurn_effect turn run
    exact effect.err_eq
  · rintro ⟨rest, pending⟩
    cases (step_reset pending).symm.trans run
    rfl

/-- Settles O38: by the effect of a transaction; a decoded word's index is in its row's range. -/
theorem onlyWriteKeyClearKeyAndResetChangeKey :
    Obligations.OnlyWriteKeyClearKeyAndResetChangeKey := by
  unfold Obligations.OnlyWriteKeyClearKeyAndResetChangeKey
  intro s t j run changed
  obtain ⟨ht, rest, next, effect⟩ | ⟨-, rest, effect⟩ | ⟨reset, -⟩ := step_effect run
  · exact .inr ⟨ht, next, effect.key_changed (decodeHt_wellFormed ht) changed⟩
  · exact absurd (by rw [effect.key_eq]) changed
  · exact .inl reset

/-- Settles O39: of the effects, only LOAD_KEY's acceptance and reset write Nk and Nr. -/
theorem onlyLoadKeyAndResetChangeNkNr : Obligations.OnlyLoadKeyAndResetChangeNkNr := by
  unfold Obligations.OnlyLoadKeyAndResetChangeNkNr
  intro s t run changed
  obtain ⟨ht, rest, next, effect⟩ | ⟨-, rest, effect⟩ | ⟨reset, -⟩ := step_effect run
  · obtain ⟨keylen, ins, idle, size, nk, nr⟩ := effect.context_changed changed
    exact .inr ⟨ht, keylen, next, ins, idle, size, nk, nr⟩
  · exact absurd changed (by simp [effect.nk_eq, effect.nr_eq])
  · exact .inl reset

/-- Settles O40: of the effects, only the three acceptances take the phase from IDLE. -/
theorem onlyAnAcceptedCommandLeavesIdle : Obligations.OnlyAnAcceptedCommandLeavesIdle := by
  unfold Obligations.OnlyAnAcceptedCommandLeavesIdle
  intro s t run idle running
  obtain ⟨ht, rest, next, effect⟩ | ⟨-, rest, effect⟩ | ⟨-, rest, rfl⟩ := step_effect run
  · obtain ⟨keylen, accepted⟩ := effect.leaves_idle idle running
    exact ⟨ht, keylen, next, accepted⟩
  · exact absurd (effect.idle idle) running
  · exact absurd rfl running

/-- Settles O41: no transaction ends an operation, and a micro-step that does reports it at once. -/
theorem completionIsOneVisibleStep : Obligations.CompletionIsOneVisibleStep := by
  unfold Obligations.CompletionIsOneVisibleStep
  intro s t run running idle
  obtain ⟨ht, rest, -, effect⟩ | ⟨turn, rest, effect⟩ | ⟨reset, -⟩ := step_effect run
  · exact absurd ((effect.phase_eq_of_busy running).symm.trans idle) running
  · exact .inr ⟨turn, effect.completion running idle⟩
  · exact .inl reset

end Sys2Proof.Laws
end

section
/-! PROOFS. What a step does not read (spec/10_state.md R28, R32, R40, spec/70_reset_and_hazards.md
R276, R278): KEY, W and S reach no other element but DOUT, and the host's registers reach no
micro-step. -/

namespace Sys2Proof.Machine

/-! ## Secrets -/

theorem sameButSecrets_iff {s t : State} :
    SameButSecrets s t ↔ ∃ key w st, t = { s with key := key, w := w, st := st } := by
  constructor
  · intro same
    exact ⟨t.key, t.w, t.st, same.symm⟩
  · rintro ⟨key, w, st, rfl⟩
    rfl

/-- The answer is a next state that agrees with `t` but for secrets. -/
def AnswersButSecrets (answer : Result) (t : State) : Prop :=
  ∃ t', answer = .next t' ∧ SameButSecrets t t'

section
variable {s s' t : State}

/-- No read returns a secret (spec/10_state.md R28, R32, R35). -/
theorem SameButSecrets.regRead_eq (same : SameButSecrets s s') (idx : BitVec 5) :
    regRead s' idx = regRead s idx := by
  obtain ⟨key, w, st, rfl⟩ := sameButSecrets_iff.mp same
  unfold regRead
  split <;> rfl

theorem SameButSecrets.respond (same : SameButSecrets s s') (v : Word) :
    SameButSecrets (respond v s) (respond v s') := by
  obtain ⟨key, w, st, rfl⟩ := sameButSecrets_iff.mp same
  rfl

theorem SameButSecrets.regWrite (same : SameButSecrets s s') (idx : BitVec 5) (v : Word) :
    SameButSecrets (regWrite idx v s) (regWrite idx v s') := by
  obtain ⟨key, w, st, rfl⟩ := sameButSecrets_iff.mp same
  unfold Machine.regWrite
  split <;> rfl

/-- A command's checks read no secret, and what it writes from one is a secret. -/
theorem SameButSecrets.exec (same : SameButSecrets s s') {ins : Instr}
    (run : exec ins s = .next t) : AnswersButSecrets (exec ins s') t := by
  cases ins with
  | readReg idx =>
    cases run
    refine ⟨_, exec_readReg idx s', ?_⟩
    rw [same.regRead_eq]
    exact same.respond _
  | writeKey idx v => cases run; exact ⟨_, exec_writeKey idx v s', same.regWrite idx v⟩
  | writeDin idx v => cases run; exact ⟨_, exec_writeDin idx v s', same.regWrite idx v⟩
  | loadKey keylen =>
    obtain ⟨key, w, st, rfl⟩ := sameButSecrets_iff.mp same
    by_cases idle : s.phase = .idle
    · cases size : keylenAccepted keylen
      · cases (exec_loadKey_badSize keylen idle size).symm.trans run
        exact ⟨_, exec_loadKey_badSize keylen idle size, rfl⟩
      · cases (exec_loadKey_accepted keylen idle size).symm.trans run
        exact ⟨_, exec_loadKey_accepted keylen idle size, rfl⟩
    · cases (exec_loadKey_busy keylen idle).symm.trans run
      exact ⟨_, exec_loadKey_busy keylen idle, rfl⟩
  | encrypt keylen =>
    obtain ⟨key, w, st, rfl⟩ := sameButSecrets_iff.mp same
    by_cases idle : s.phase = .idle
    · obtain valid | invalid := Bool.eq_false_or_eq_true s.keyValid
      · cases (exec_encrypt_accepted keylen idle valid).symm.trans run
        exact ⟨_, exec_encrypt_accepted keylen idle valid, rfl⟩
      · cases (exec_encrypt_noKey keylen idle invalid).symm.trans run
        exact ⟨_, exec_encrypt_noKey keylen idle invalid, rfl⟩
    · cases (exec_encrypt_busy keylen idle).symm.trans run
      exact ⟨_, exec_encrypt_busy keylen idle, rfl⟩
  | decrypt keylen =>
    obtain ⟨key, w, st, rfl⟩ := sameButSecrets_iff.mp same
    by_cases idle : s.phase = .idle
    · obtain valid | invalid := Bool.eq_false_or_eq_true s.keyValid
      · obtain context | noContext := Bool.eq_false_or_eq_true (contextOk s)
        · cases (exec_decrypt_accepted keylen idle valid context).symm.trans run
          exact ⟨_, exec_decrypt_accepted keylen idle valid context, rfl⟩
        · cases (exec_decrypt_noContext keylen idle valid noContext).symm.trans run
      · cases (exec_decrypt_noKey keylen idle invalid).symm.trans run
        exact ⟨_, exec_decrypt_noKey keylen idle invalid, rfl⟩
    · cases (exec_decrypt_busy keylen idle).symm.trans run
      exact ⟨_, exec_decrypt_busy keylen idle, rfl⟩
  | clearKey keylen =>
    obtain ⟨key, w, st, rfl⟩ := sameButSecrets_iff.mp same
    by_cases idle : s.phase = .idle
    · cases (exec_clearKey_accepted keylen idle).symm.trans run
      exact ⟨_, exec_clearKey_accepted keylen idle, rfl⟩
    · cases (exec_clearKey_busy keylen idle).symm.trans run
      exact ⟨_, exec_clearKey_busy keylen idle, rfl⟩
  | nop keylen
  | illegalCmd5 keylen
  | illegalCmd6or7 cmd keylen
  | writeStatus
  | writeRsvd2to3 idx
  | writeRsvd4to7 idx
  | writeDout idx
  | writeRsvd24to31 idx =>
    obtain ⟨key, w, st, rfl⟩ := sameButSecrets_iff.mp same
    cases run
    exact ⟨_, rfl, rfl⟩

theorem SameButSecrets.events_eq (same : SameButSecrets s s') : s'.events = s.events := by
  obtain ⟨key, w, st, rfl⟩ := sameButSecrets_iff.mp same
  rfl

theorem SameButSecrets.setEvents (same : SameButSecrets s s') (events : List Event) :
    SameButSecrets { s with events := events } { s' with events := events } := by
  obtain ⟨key, w, st, rfl⟩ := sameButSecrets_iff.mp same
  rfl

theorem SameButSecrets.resetBlock (same : SameButSecrets s s') :
    SameButSecrets (resetBlock s) (resetBlock s') := by
  obtain ⟨key, w, st, rfl⟩ := sameButSecrets_iff.mp same
  rfl

/-- The core is about to end an ENCRYPT or a DECRYPT. -/
def Delivers (s : State) : Prop :=
  (s.phase = .enc ∧ s.rnd.toNat = s.nr.toNat) ∨ (s.phase = .dec ∧ s.rnd.toNat = 0)

/-- A micro-step's counters read no secret, and what it computes from one is a secret, but for the
block that it delivers (spec/10_state.md R40). -/
theorem SameButSecrets.coreStep (same : SameButSecrets s s') (run : coreStep s = .next t) :
    ∃ t', coreStep s' = .next t' ∧ (¬ Delivers s → SameButSecrets t t') ∧
      (Delivers s → SameButSecrets { t with dout := t'.dout } t') := by
  obtain ⟨key, w, st, rfl⟩ := sameButSecrets_iff.mp same
  cases coreStep_next run with
  | wait idle =>
    exact ⟨_, coreStep_idle idle, fun _ => rfl, fun _ => rfl⟩
  | expand phase range more =>
    exact ⟨_, coreStep_expand_more phase range more, fun _ => rfl, fun _ => rfl⟩
  | expandLast phase range last =>
    exact ⟨_, coreStep_expand_last phase range last, fun _ => rfl, fun _ => rfl⟩
  | enc phase range more =>
    exact ⟨_, coreStep_enc_more phase range more, fun _ => rfl, fun _ => rfl⟩
  | encLast phase range last =>
    exact ⟨_, coreStep_enc_last phase range last, fun no => absurd (.inl ⟨phase, last⟩) no,
      fun _ => rfl⟩
  | dec phase range more =>
    exact ⟨_, coreStep_dec_more phase range more, fun _ => rfl, fun _ => rfl⟩
  | decLast phase range last =>
    exact ⟨_, coreStep_dec_last phase range last, fun no => absurd (.inr ⟨phase, last⟩) no,
      fun _ => rfl⟩

/-- The core's turn takes the same event from every state with these events. -/
theorem step_of_nextIsCore (turn : nextIsCore s) :
    ∃ rest, ∀ u : State, u.events = s.events → step u = coreStep { u with events := rest } := by
  obtain pending | ⟨rest, pending⟩ := turn
  · exact ⟨[], fun u events => step_coreTurn (.inr ⟨events.trans pending, rfl⟩)⟩
  · exact ⟨rest, fun u events => step_core (events.trans pending)⟩

/-- The core's turn, on two states that agree but for secrets. -/
theorem SameButSecrets.step_core (same : SameButSecrets s s') (turn : nextIsCore s)
    (run : step s = .next t) :
    ∃ t', step s' = .next t' ∧ (¬ nextDelivers s → SameButSecrets t t') ∧
      (nextDelivers s → SameButSecrets { t with dout := t'.dout } t') := by
  obtain ⟨rest, answer⟩ := step_of_nextIsCore turn
  rw [answer s rfl] at run
  obtain ⟨t', run', other, delivers⟩ := (same.setEvents rest).coreStep run
  exact ⟨t', (answer s' same.events_eq).trans run', fun no => other fun last => no ⟨turn, last⟩,
    fun last => delivers last.2⟩

/-- A step that is not the core's, on two states that agree but for secrets. -/
theorem SameButSecrets.step_other (same : SameButSecrets s s') (other : ¬ nextIsCore s)
    (run : step s = .next t) : AnswersButSecrets (step s') t := by
  match pending : s.events with
  | [] => exact absurd (.inl pending) other
  | .core :: rest => exact absurd (.inr ⟨rest, pending⟩) other
  | .host ht :: rest =>
    rw [step_host pending] at run
    rw [step_host (same.events_eq.trans pending)]
    exact (same.setEvents rest).exec run
  | .reset :: rest =>
    cases (step_reset pending).symm.trans run
    exact ⟨_, step_reset (same.events_eq.trans pending), (same.setEvents rest).resetBlock⟩

end

/-! ## The host's registers -/

/-- The block of `s` with the host's side of `h`: CTRL, KEY, DIN and what the host has received. -/
def withHostSide (s h : State) : State :=
  { s with
    ctrlCmd := h.ctrlCmd, ctrlKeylen := h.ctrlKeylen, key := h.key, din := h.din,
    responses := h.responses }

/-- No micro-step reads or writes the host's side (spec/70_reset_and_hazards.md R276). -/
theorem coreStep_withHostSide {s t : State} (run : coreStep s = .next t) (h : State) :
    coreStep (withHostSide s h) = .next (withHostSide t h) := by
  cases coreStep_next run with
  | wait idle => exact coreStep_idle idle
  | expand phase range more => exact coreStep_expand_more phase range more
  | expandLast phase range last => exact coreStep_expand_last phase range last
  | enc phase range more => exact coreStep_enc_more phase range more
  | encLast phase range last => exact coreStep_enc_last phase range last
  | dec phase range more => exact coreStep_dec_more phase range more
  | decLast phase range last => exact coreStep_dec_last phase range last

theorem CoreEffect.withHostSide_eq {s t : State} (effect : CoreEffect s t) :
    withHostSide t s = t := by
  cases effect <;> rfl

/-- The transactions that are no command and read neither STATUS nor DOUT
(spec/70_reset_and_hazards.md R278). -/
def HoldingAccess (ins : Instr) : Prop :=
  (∃ idx data, ins = .writeKey idx data) ∨ (∃ idx data, ins = .writeDin idx data) ∨
    (∃ keylen, ins = .nop keylen) ∨
    (∃ idx : BitVec 5, ins = .readReg idx ∧ idx.toNat ≠ 1 ∧
      ¬ (20 ≤ idx.toNat ∧ idx.toNat ≤ 23))

theorem regWrite_withHostSide (idx : BitVec 5) (v : Word) (s h : State) :
    regWrite idx v (withHostSide s h) = withHostSide s (regWrite idx v h) := by
  unfold regWrite
  split <;> rfl

/-- An IDX outside STATUS and DOUT names a register of the host's side, or reads zero. -/
theorem regRead_withHostSide {idx : BitVec 5} (noStatus : idx.toNat ≠ 1)
    (noDout : ¬ (20 ≤ idx.toNat ∧ idx.toNat ≤ 23)) (s h : State) :
    regRead (withHostSide s h) idx = regRead h idx := by
  unfold regRead
  split
  next => rfl
  next status => exact absurd ((regOf_eq_status_iff idx).mp status) noStatus
  next => rfl
  next => rfl
  next c dout => have := (regOf_eq_dout_iff idx c).mp dout; omega
  next => rfl

/-- A holding register access reads and writes the host's side only. -/
theorem HoldingAccess.exec_withHostSide {ins : Instr} (access : HoldingAccess ins) (s h : State) :
    ∃ t, exec ins h = .next t ∧ exec ins (withHostSide s h) = .next (withHostSide s t) := by
  obtain ⟨idx, v, rfl⟩ | ⟨idx, v, rfl⟩ | ⟨keylen, rfl⟩ | ⟨idx, rfl, noStatus, noDout⟩ := access
  · exact ⟨_, exec_writeKey idx v h, by rw [exec_writeKey, regWrite_withHostSide]⟩
  · exact ⟨_, exec_writeDin idx v h, by rw [exec_writeDin, regWrite_withHostSide]⟩
  · exact ⟨_, exec_nop keylen h, rfl⟩
  · refine ⟨_, exec_readReg idx h, ?_⟩
    rw [exec_readReg, regRead_withHostSide noStatus noDout]
    rfl

end Sys2Proof.Machine

/-! ## The statements -/

namespace Sys2Proof.Laws

open Sys2Proof.Machine

/-- Settles O56: event by event, on two states that agree but for secrets. -/
theorem secretsReachOnlyADeliveredBlock : Obligations.SecretsReachOnlyADeliveredBlock := by
  unfold Obligations.SecretsReachOnlyADeliveredBlock
  intro s t s1 same run
  by_cases turn : nextIsCore s
  · exact same.step_core turn run
  · obtain ⟨t1, run', same1⟩ := same.step_other turn run
    exact ⟨t1, run', fun _ => same1, fun delivers => absurd delivers.1 turn⟩

/-- Settles O55: the access changes the host's side, the micro-step the rest. -/
theorem holdingRegisterAccessCommutesWithTheCore :
    Obligations.HoldingRegisterAccessCommutesWithTheCore := by
  unfold Obligations.HoldingRegisterAccessCommutesWithTheCore
  intro s s1 ins run access
  obtain ⟨s2, first, framed⟩ := HoldingAccess.exec_withHostSide access s s
  obtain ⟨s2', first', second⟩ := HoldingAccess.exec_withHostSide access s1 s
  cases first.symm.trans first'
  have onlyHostSide : withHostSide s s2 = s2 :=
    Host.Outcome.next.inj (framed.symm.trans first)
  rw [(coreStep_next run).withHostSide_eq] at second
  have last : coreStep s2 = .next (withHostSide s1 s2) :=
    onlyHostSide ▸ coreStep_withHostSide run s2
  exact ⟨s2, _, first, last, second⟩

end Sys2Proof.Laws
end

section
/-! PROOFS. The cipher's algebra (spec/41_tables.md R131 to R142, spec/44_inverse_round.md R201 to
R209): the laws of gmul, the tables against their formulas, MixColumns and its inverse as products
by matrices, the T-table rounds, and that decryption undoes encryption. -/

namespace Sys2Proof.Machine

/-! ## Multiplication by powers of x -/

theorem xtime_xor (a b : Byte) : xtime (a ^^^ b) = xtime a ^^^ xtime b := by
  have select (p q : Bool) : (if (p ^^ q) = true then 0x1b#8 else 0x00#8) =
      (if p = true then 0x1b#8 else 0x00#8) ^^^ (if q = true then 0x1b#8 else 0x00#8) := by
    cases p <;> cases q <;> rfl
  rw [xtime, BitVec.shiftLeft_xor_distrib, BitVec.getLsbD_xor, select, xtime, xtime]
  ac_rfl

theorem xtimePow_xor (k : Nat) (a b : Byte) :
    xtimePow k (a ^^^ b) = xtimePow k a ^^^ xtimePow k b := by
  induction k with
  | zero => rfl
  | succ k ih => rw [xtimePow, ih, xtime_xor]; rfl

theorem xtimePow_zero (k : Nat) : xtimePow k 0#8 = 0#8 := by
  simpa using xtimePow_xor k 0#8 0#8

theorem xtimePow_add (j k : Nat) (a : Byte) : xtimePow (j + k) a = xtimePow j (xtimePow k a) := by
  induction j with
  | zero => rw [Nat.zero_add, xtimePow]
  | succ j ih => rw [Nat.succ_add, xtimePow, ih, xtimePow]

theorem gmulUpTo_xtimePow (n k : Nat) (a b : Byte) :
    gmulUpTo n (xtimePow k a) b = xtimePow k (gmulUpTo n a b) := by
  induction n with
  | zero => exact (xtimePow_zero k).symm
  | succ n ih =>
    rw [gmulUpTo, ih, ← xtimePow_add, Nat.add_comm, xtimePow_add, gmulUpTo, xtimePow_xor]
    split_ifs
    · rfl
    · rw [xtimePow_zero]

/-- A power of x may be taken out of the left factor. -/
theorem xtimePow_gmul (k : Nat) (a b : Byte) : gmul (xtimePow k a) b = xtimePow k (gmul a b) :=
  gmulUpTo_xtimePow 8 k a b

/-- A byte that is a power of x selects one multiple of the left factor. -/
theorem gmul_xPow (a : Byte) {k : Nat} (hk : k < 8) : gmul a (xtimePow k 1#8) = xtimePow k a := by
  interval_cases k <;> simp [gmul, gmulUpTo, xtimePow, xtime]

/-! ## The ring laws -/

/-- A byte is the sum of the powers of x at its set bits. -/
theorem one_gmul : ∀ a : Byte, gmul 1#8 a = a := by
  decide

/-- The function is additive over exclusive or. -/
def XorAdditive (f : Byte → Byte) : Prop := ∀ a b, f (a ^^^ b) = f a ^^^ f b

theorem XorAdditive.map_zero {f : Byte → Byte} (hf : XorAdditive f) : f 0#8 = 0#8 := by
  simpa using hf 0#8 0#8

/-- XorAdditive functions that agree at the powers of x agree. -/
theorem XorAdditive.ext {f g : Byte → Byte} (hf : XorAdditive f) (hg : XorAdditive g)
    (basis : ∀ k, k < 8 → f (xtimePow k 1#8) = g (xtimePow k 1#8)) (a : Byte) : f a = g a := by
  have partialSum : ∀ n, n ≤ 8 → f (gmulUpTo n 1#8 a) = g (gmulUpTo n 1#8 a) := by
    intro n
    induction n with
    | zero => exact fun _ => hf.map_zero.trans hg.map_zero.symm
    | succ n ih =>
      intro hn
      rw [gmulUpTo, hf, hg, ih (by omega)]
      split_ifs
      · rw [basis n hn]
      · rw [hf.map_zero, hg.map_zero]
  rw [← one_gmul a]
  exact partialSum 8 (le_refl 8)

theorem additive_gmul (a : Byte) : XorAdditive (gmul a) := gmul_xor a

theorem xor_gmulUpTo (n : Nat) (a b c : Byte) :
    gmulUpTo n (a ^^^ b) c = gmulUpTo n a c ^^^ gmulUpTo n b c := by
  induction n with
  | zero => simp [gmulUpTo]
  | succ n ih =>
    rw [gmulUpTo, ih, xtimePow_xor, gmulUpTo, gmulUpTo]
    split_ifs
    · ac_rfl
    · simp

/-- Multiplication distributes over exclusive or on the left too (spec/41_tables.md R131). -/
theorem xor_gmul (a b c : Byte) : gmul (a ^^^ b) c = gmul a c ^^^ gmul b c :=
  xor_gmulUpTo 8 a b c

theorem gmul_comm (a b : Byte) : gmul a b = gmul b a := by
  refine (additive_gmul a).ext (g := fun b => gmul b a) (fun b c => xor_gmul b c a) (fun k hk => ?_) b
  rw [gmul_xPow a hk, xtimePow_gmul, one_gmul]

theorem gmul_assoc (a b c : Byte) : gmul (gmul a b) c = gmul a (gmul b c) := by
  have nested : XorAdditive fun c => gmul a (gmul b c) := fun c d => by simp only [gmul_xor]
  refine (additive_gmul (gmul a b)).ext nested (fun k hk => ?_) c
  rw [gmul_xPow _ hk, gmul_xPow b hk, gmul_comm a (xtimePow k b), xtimePow_gmul, gmul_comm b]

theorem gmul_one (a : Byte) : gmul a 1#8 = a := gmul_xPow a (k := 0) (by decide)

theorem gmul_zero (a : Byte) : gmul a 0#8 = 0#8 := (additive_gmul a).map_zero

theorem zero_gmul (a : Byte) : gmul 0#8 a = 0#8 := (gmul_comm 0#8 a).trans (gmul_zero a)

/-! ## The inverse -/

/-- `a` squared `k` times. -/
def squarePow : Nat → Byte → Byte
  | 0, a => a
  | k + 1, a => gmul (squarePow k a) (squarePow k a)

/-- Squaring is additive, since the mixed products cancel. -/
theorem additive_squarePow (k : Nat) : XorAdditive (squarePow k) := by
  intro a b
  induction k with
  | zero => rfl
  | succ k ih =>
    rw [squarePow, ih, gmul_xor, xor_gmul, xor_gmul, gmul_comm (squarePow k b) (squarePow k a)]
    simp only [squarePow]
    rw [BitVec.xor_assoc, ← BitVec.xor_assoc (gmul (squarePow k a) (squarePow k b)),
      BitVec.xor_self, BitVec.zero_xor]

/-- Squaring a power of x doubles its exponent. -/
theorem squarePow_xPow (j k : Nat) :
    squarePow j (xtimePow k 1#8) = xtimePow (2 ^ j * k) 1#8 := by
  induction j with
  | zero => rw [squarePow, Nat.pow_zero, Nat.one_mul]
  | succ j ih =>
    rw [squarePow, ih, xtimePow_gmul, one_gmul, ← xtimePow_add, Nat.pow_succ]
    congr 1
    ring

theorem xtimePow_51 : xtimePow 51 1#8 = 1#8 := by
  simp [xtimePow, xtime]

/-- The order of x divides 51. -/
theorem xtimePow_period (m : Nat) : xtimePow (51 * m) 1#8 = 1#8 := by
  induction m with
  | zero => rfl
  | succ m ih => rw [Nat.mul_succ, xtimePow_add, xtimePow_51, ih]

/-- `a^256 = a`: both sides are additive, and `256k` is `k` modulo the order of x. -/
theorem squarePow_eight (a : Byte) : squarePow 8 a = a := by
  refine (additive_squarePow 8).ext (g := id) (fun _ _ => rfl) (fun k _ => ?_) a
  rw [squarePow_xPow, show 2 ^ 8 * k = k + 51 * (5 * k) by ring, xtimePow_add, xtimePow_period, id]

theorem gmul_squarePow (b : Byte) (k : Nat) (a : Byte) :
    gmul (gmul b (squarePow k a)) (squarePow k a) = gmul b (squarePow (k + 1) a) :=
  gmul_assoc ..

/-- `a^254` times `a^2` is `a`. -/
theorem ginv_gmul_square (a : Byte) : gmul (ginv a) (gmul a a) = a := by
  change gmul (gmul (gmul (gmul (gmul (gmul (gmul (squarePow 7 a) (squarePow 6 a)) (squarePow 5 a))
    (squarePow 4 a)) (squarePow 3 a)) (squarePow 2 a)) (squarePow 1 a)) (squarePow 1 a) = a
  simp only [gmul_squarePow]
  exact squarePow_eight a

/-- The affine transform of R133 backwards. -/
def unaffine (b : Byte) : Byte := b.rotateLeft 1 ^^^ b.rotateLeft 3 ^^^ b.rotateLeft 6 ^^^ 0x05#8

theorem sboxAffine_unaffine : ∀ b : Byte, sboxAffine (unaffine b) = b := by
  decide

/-- The table holds an inverse of every byte but zero, behind the affine transform. -/
theorem gmul_unaffine_sbox : ∀ x : Byte, x ≠ 0#8 → gmul x (unaffine (sbox x)) = 1#8 := by
  decide

theorem gmul_ginv {x : Byte} (nonzero : x ≠ 0#8) : gmul x (ginv x) = 1#8 := by
  have inverse := gmul_unaffine_sbox x nonzero
  calc gmul x (ginv x)
      = gmul (gmul x (ginv x)) (gmul x (unaffine (sbox x))) := by rw [inverse, gmul_one]
    _ = gmul (gmul (ginv x) (gmul x x)) (unaffine (sbox x)) := by
        rw [gmul_comm x (ginv x), gmul_assoc, gmul_assoc, gmul_assoc]
    _ = 1#8 := by rw [ginv_gmul_square, inverse]

/-- The inverse is unique. -/
theorem eq_ginv_of_gmul_eq_one {x b : Byte} (inverse : gmul x b = 1#8) : b = ginv x := by
  have nonzero : x ≠ 0#8 := by
    rintro rfl
    rw [zero_gmul] at inverse
    exact absurd inverse (by decide)
  calc b = gmul (gmul x (ginv x)) b := by rw [gmul_ginv nonzero, one_gmul]
    _ = gmul (ginv x) (gmul x b) := by rw [gmul_comm x (ginv x), gmul_assoc]
    _ = ginv x := by rw [inverse, gmul_one]

theorem ginv_zero : ginv 0#8 = 0#8 := by
  decide

theorem sbox_eq_sboxAffine_ginv (x : Byte) : sbox x = sboxAffine (ginv x) := by
  by_cases zero : x = 0#8
  · rw [zero, ginv_zero]
    rfl
  · rw [← eq_ginv_of_gmul_eq_one (gmul_unaffine_sbox x zero), sboxAffine_unaffine]

/-! ## The tables -/

theorem invSbox_sbox : ∀ x : Byte, invSbox (sbox x) = x := by
  decide

theorem sbox_invSbox : ∀ x : Byte, sbox (invSbox x) = x := by
  decide

theorem sbox_ne_self : ∀ x : Byte, sbox x ≠ x := by
  decide

theorem rcon_eq_xtimePow : ∀ k : Fin 30, 1 ≤ k.val → rcon k.val = xtimePow (k.val - 1) 1 := by
  decide

/-! ## MixColumns and InvMixColumns as products by a matrix -/

/-- A row of a matrix times a column. -/
def dot (m a : Fin 4 → Byte) : Byte :=
  gmul (m 0) (a 0) ^^^ gmul (m 1) (a 1) ^^^ gmul (m 2) (a 2) ^^^ gmul (m 3) (a 3)

/-- A row times a product is a row of the product of the matrices times the column. -/
theorem dot_dot (n : Fin 4 → Byte) (m : Fin 4 → Fin 4 → Byte) (a : Fin 4 → Byte) :
    dot n (fun k => dot (m k) a) = dot (fun j => dot n fun k => m k j) a := by
  simp only [dot, gmul_xor, xor_gmul, ← gmul_assoc]
  ac_rfl

/-- A row of the unit matrix picks an entry. -/
theorem dot_unit (r : Fin 4) (a : Fin 4 → Byte) :
    dot (fun j => if j = r then 1#8 else 0#8) a = a r := by
  match r with
  | 0 | 1 | 2 | 3 => simp [dot, one_gmul, zero_gmul]

/-- The matrix of MixColumns (spec/43_forward_round.md R183). -/
def mixRow (r k : Fin 4) : Byte := ![2, 3, 1, 1] (k - r)

/-- The matrix of InvMixColumns (spec/44_inverse_round.md R203). -/
def invMixRow (r k : Fin 4) : Byte := ![0x0e, 0x0b, 0x0d, 0x09] (k - r)

theorem byteAt_mixColumn (r : Fin 4) (w : Word) :
    byteAt r (mixColumn w) = dot (mixRow r) fun k => byteAt k w := by
  match r with
  | 0 | 1 | 2 | 3 => simp [mixColumn, dot, mixRow, one_gmul]

theorem byteAt_invMixColumn (r : Fin 4) (w : Word) :
    byteAt r (invMixColumn w) = dot (invMixRow r) fun k => byteAt k w := by
  match r with
  | 0 | 1 | 2 | 3 => simp [invMixColumn, dot, invMixRow]

/-- The two matrices are inverse to each other. -/
theorem invMixRow_mixRow : ∀ r j : Fin 4,
    dot (invMixRow r) (fun k => mixRow k j) = if j = r then 1#8 else 0#8 := by
  decide

theorem invMixColumn_mixColumn (w : Word) : invMixColumn (mixColumn w) = w := by
  have byte (r : Fin 4) : byteAt r (invMixColumn (mixColumn w)) = byteAt r w := by
    simp only [byteAt_invMixColumn, byteAt_mixColumn, dot_dot, invMixRow_mixRow, dot_unit]
  exact word_ext (byte 0) (byte 1) (byte 2) (byte 3)

@[simp] theorem invMixColumns_mixColumns (b : Block) : invMixColumns (mixColumns b) = b :=
  block_ext fun c => by simp [mixColumns, invMixColumn_mixColumn]

/-! ## The other transforms and their inverses -/

@[simp] theorem invSubBytes_subBytes (b : Block) : invSubBytes (subBytes b) = b :=
  block_ext_cell fun r c => by simp [invSbox_sbox]

@[simp] theorem invShiftRows_shiftRows (b : Block) : invShiftRows (shiftRows b) = b :=
  block_ext_cell fun r c => by simp

/-! ## T-tables -/

theorem t1_eq (x : Byte) : t1 x = pack (gmul 3 (sbox x)) (gmul 2 (sbox x)) (sbox x) (sbox x) :=
  rotl32_pack_24 ..

theorem t2_eq (x : Byte) : t2 x = pack (sbox x) (gmul 3 (sbox x)) (gmul 2 (sbox x)) (sbox x) :=
  rotl32_pack_16 ..

theorem t3_eq (x : Byte) : t3 x = pack (sbox x) (sbox x) (gmul 3 (sbox x)) (gmul 2 (sbox x)) :=
  rotl32_pack_8 ..

/-- Four T-table entries are MixColumns of the four substituted bytes
(spec/43_forward_round.md R187). -/
theorem tTables_eq_mixColumn (x0 x1 x2 x3 : Byte) :
    t0 x0 ^^^ t1 x1 ^^^ t2 x2 ^^^ t3 x3 =
      mixColumn (pack (sbox x0) (sbox x1) (sbox x2) (sbox x3)) := by
  rw [t0, t1_eq, t2_eq, t3_eq]
  apply word_ext <;> simp [mixColumn]

theorem invT1_eq (x : Byte) : invT1 x =
    pack (gmul 0x0b (invSbox x)) (gmul 0x0e (invSbox x)) (gmul 0x09 (invSbox x))
      (gmul 0x0d (invSbox x)) :=
  rotl32_pack_24 ..

theorem invT2_eq (x : Byte) : invT2 x =
    pack (gmul 0x0d (invSbox x)) (gmul 0x0b (invSbox x)) (gmul 0x0e (invSbox x))
      (gmul 0x09 (invSbox x)) :=
  rotl32_pack_16 ..

theorem invT3_eq (x : Byte) : invT3 x =
    pack (gmul 0x09 (invSbox x)) (gmul 0x0d (invSbox x)) (gmul 0x0b (invSbox x))
      (gmul 0x0e (invSbox x)) :=
  rotl32_pack_8 ..

/-- Four InvT-table entries are InvMixColumns of the four substituted bytes
(spec/44_inverse_round.md R207). -/
theorem invTTables_eq_invMixColumn (x0 x1 x2 x3 : Byte) :
    invT0 x0 ^^^ invT1 x1 ^^^ invT2 x2 ^^^ invT3 x3 =
      invMixColumn (pack (invSbox x0) (invSbox x1) (invSbox x2) (invSbox x3)) := by
  rw [invT0, invT1_eq, invT2_eq, invT3_eq]
  apply word_ext <;> simp [invMixColumn]

/-- The substitutions of the key transform cancel (spec/41_tables.md R142). -/
theorem invMixColumnWord_eq (w : Word) : invMixColumnWord w = invMixColumn w := by
  rw [invMixColumnWord, invTTables_eq_invMixColumn]
  simp only [invSbox_sbox, pack_byteAt]

/-! ## Rounds, column by column -/

/-- A column of SubBytes and ShiftRows (spec/43_forward_round.md R181, R182). -/
theorem column_shiftRows_subBytes (b : Block) (c : Fin 4) :
    column (shiftRows (subBytes b)) c = pack (sbox (cell b 0 c)) (sbox (cell b 1 (c + 1)))
      (sbox (cell b 2 (c + 2))) (sbox (cell b 3 (c + 3))) := by
  simp

/-- A column of InvShiftRows and InvSubBytes (spec/44_inverse_round.md R201, R202). -/
theorem column_invSubBytes_invShiftRows (b : Block) (c : Fin 4) :
    column (invSubBytes (invShiftRows b)) c =
      pack (invSbox (cell b 0 c)) (invSbox (cell b 1 (c + 3))) (invSbox (cell b 2 (c + 2)))
        (invSbox (cell b 3 (c + 1))) := by
  simp [invSubBytes, invSubWord, invShiftRows]

theorem tableFullRound_eq (w : Vector Word 60) (r : Nat) (b : Block) :
    tableFullRound w r b = fullRound w r b := by
  refine block_ext fun c => ?_
  rw [tableFullRound, column_ofColumns, tTables_eq_mixColumn, ← column_shiftRows_subBytes,
    fullRound, column_addRoundKey, mixColumns, column_ofColumns]

theorem tableFinalRound_eq (w : Vector Word 60) (r : Nat) (b : Block) :
    tableFinalRound w r b = finalRound w r b := by
  refine block_ext fun c => ?_
  rw [tableFinalRound, column_ofColumns, ← column_shiftRows_subBytes, finalRound,
    column_addRoundKey]

theorem tableInvFullRound_eq (w : Vector Word 60) (r : Nat) (b : Block) :
    tableInvFullRound w r b = invFullRound w r b := by
  refine block_ext fun c => ?_
  rw [tableInvFullRound, column_ofColumns, invTTables_eq_invMixColumn,
    ← column_invSubBytes_invShiftRows, invMixColumnWord_eq, invFullRound, column_invMixColumns,
    column_addRoundKey, invMixColumn_xor]

theorem tableInvFinalRound_eq (w : Vector Word 60) (b : Block) :
    tableInvFinalRound w b = invFinalRound w b := by
  refine block_ext fun c => ?_
  rw [tableInvFinalRound, column_ofColumns, ← column_invSubBytes_invShiftRows, invFinalRound,
    column_addRoundKey, Nat.mul_zero, Nat.zero_add]

/-! ## Decryption undoes encryption -/

/-- An inverse round, between the two halves of the forward rounds, undoes a full round. -/
theorem invFullRound_undoes (w : Vector Word 60) (r : Nat) (b : Block) :
    invFullRound w r (shiftRows (subBytes (fullRound w r b))) = shiftRows (subBytes b) := by
  simp [invFullRound, fullRound]

theorem invFullRounds_undo (w : Vector Word 60) (n : Nat) (b : Block) :
    invFullRounds w n (shiftRows (subBytes (fullRounds w n b))) = shiftRows (subBytes b) := by
  induction n with
  | zero => rfl
  | succ n ih => rw [invFullRounds, fullRounds, invFullRound_undoes, ih]

theorem decryptBlock_encryptBlock (w : Vector Word 60) (nr : Nat) (p : Block) :
    decryptBlock w nr (encryptBlock w nr p) = p := by
  rw [decryptBlock, encryptBlock, finalRound, addRoundKey_twice, invFullRounds_undo, invFinalRound,
    invShiftRows_shiftRows, invSubBytes_subBytes, addRoundKey_twice]

end Sys2Proof.Machine

/-! ## The statements -/

namespace Sys2Proof.Laws

open Sys2Proof.Machine

/-- Settles O42: each law is bilinear, and so follows from the powers of x. -/
theorem gmulIsAFieldMultiplication : Obligations.GmulIsAFieldMultiplication := by
  unfold Obligations.GmulIsAFieldMultiplication
  intro a b c
  exact ⟨gmul_comm a b, gmul_assoc a b c, gmul_one a, gmul_zero a, gmul_xor a b c,
    (gmul_xPow a (k := 1) (by decide)).symm⟩

/-- Settles O43: the powers of R132 give the unique inverse, and the table's entry is its affine
transform. -/
theorem sboxIsTheAffineInverse : Obligations.SboxIsTheAffineInverse := by
  unfold Obligations.SboxIsTheAffineInverse
  refine ⟨ginv_zero, fun x => ⟨fun nonzero b => ?_, sbox_eq_sboxAffine_ginv x⟩⟩
  exact ⟨eq_ginv_of_gmul_eq_one, fun inverse => inverse ▸ gmul_ginv nonzero⟩

/-- Settles O44: the two tables, entry by entry. -/
theorem invSboxInvertsSbox : Obligations.InvSboxInvertsSbox := by
  unfold Obligations.InvSboxInvertsSbox
  exact fun x => ⟨invSbox_sbox x, sbox_invSbox x, sbox_ne_self x⟩

/-- Settles O45: the table, entry by entry. -/
theorem rconIsThePowersOfX : Obligations.RconIsThePowersOfX := by
  unfold Obligations.RconIsThePowersOfX
  exact ⟨rfl, fun k low high => rcon_eq_xtimePow ⟨k, by omega⟩ low⟩

/-- Settles O46: byte by byte, and column by column for InvMixColumns. -/
theorem inverseTransformsUndoTheForwardOnes :
    Obligations.InverseTransformsUndoTheForwardOnes := by
  unfold Obligations.InverseTransformsUndoTheForwardOnes
  exact fun a b => ⟨invSubBytes_subBytes a, invShiftRows_shiftRows a, invMixColumns_mixColumns a,
    invMixColumns_xorBlock a b⟩

/-- Settles O47: the S-box inside the InvT-tables cancels. -/
theorem keyTransformIsInvMixColumns : Obligations.KeyTransformIsInvMixColumns := by
  unfold Obligations.KeyTransformIsInvMixColumns
  exact invMixColumnWord_eq

/-- Settles O48: column by column, the T-tables are MixColumns of the substituted bytes. -/
theorem tableForwardRoundsEqualByteWiseRounds :
    Obligations.TableForwardRoundsEqualByteWiseRounds := by
  unfold Obligations.TableForwardRoundsEqualByteWiseRounds
  exact fun w r b => ⟨tableFullRound_eq w r b, tableFinalRound_eq w r b⟩

/-- Settles O49: column by column, with InvMixColumns applied to the round key. -/
theorem tableInverseRoundsEqualByteWiseRounds :
    Obligations.TableInverseRoundsEqualByteWiseRounds := by
  unfold Obligations.TableInverseRoundsEqualByteWiseRounds
  exact fun w r b => ⟨tableInvFullRound_eq w r b, tableInvFinalRound_eq w b⟩

/-- Settles O50: the inverse rounds undo the full rounds one by one. -/
theorem decryptUndoesEncrypt : Obligations.DecryptUndoesEncrypt := by
  unfold Obligations.DecryptUndoesEncrypt
  exact fun w nr p _ => decryptBlock_encryptBlock w nr p

end Sys2Proof.Laws
end

section
/-! PROOFS. Whole operations (spec/42_key_schedule.md R160 to R168, spec/43_forward_round.md R188,
spec/44_inverse_round.md R208, spec/70_reset_and_hazards.md R278 to R282): an operation is a family
of states, indexed by the micro-steps left before the last, that every transaction keeps and every
micro-step takes one further; it completes under every interleaving. -/

namespace Sys2Proof.Machine

/-! ## What a transaction leaves of the operation in flight -/

/-- The states agree on the key context, the operation in flight and DOUT. -/
def SameOperation (s t : State) : Prop :=
  ∃ ctrlCmd ctrlKeylen key din err events responses, t = { s with
    ctrlCmd := ctrlCmd, ctrlKeylen := ctrlKeylen, key := key, din := din, err := err,
    events := events, responses := responses }

theorem sameOperation_setEvents (s : State) (events : List Event) :
    SameOperation s { s with events := events } :=
  ⟨_, _, _, _, _, events, _, rfl⟩

section
variable {s t : State} {ins : Instr}

theorem InstrEffect.events_eq (effect : InstrEffect s ins t) : t.events = s.events := by
  cases effect with
  | report frame => rw [frame]
  | write idx v isWrite => exact regWrite_events ..
  | loadKey | encrypt | decrypt | clearKey => rfl

theorem CoreEffect.events_eq (effect : CoreEffect s t) : t.events = s.events := by
  cases effect <;> rfl

/-- A transaction to a busy block leaves its operation (spec/70_reset_and_hazards.md R278). -/
theorem InstrEffect.sameOperation (effect : InstrEffect s ins t) (running : s.phase ≠ .idle) :
    SameOperation s t := by
  cases effect with
  | report frame => exact ⟨_, _, _, _, _, _, _, frame⟩
  | write idx v isWrite => exact ⟨_, _, _, _, _, _, _, regWrite_frame idx v s⟩
  | loadKey _ idle | encrypt _ idle | decrypt _ idle | clearKey _ idle =>
    exact absurd idle running

/-- A busy block answers every transaction. -/
theorem exec_busy (running : s.phase ≠ .idle) (ins : Instr) : ∃ t, exec ins s = .next t := by
  cases run : exec ins s with
  | next t => exact ⟨t, rfl⟩
  | refused r => exact absurd run (exec_not_refused ins s r)
  | fault r =>
    obtain ⟨-, -, idle⟩ := exec_fault run
    exact absurd idle running

end

/-! ## Operations under every interleaving -/

/-- An operation whose states with `n` micro-steps left before the last are `P n`, and whose states
after the last are `Q`. -/
structure Operation (P : Nat → State → Prop) (Q : State → Prop) : Prop where
  running : ∀ {n s}, P n s → s.phase ≠ .idle
  kept : ∀ {n s t}, P n s → SameOperation s t → P n t
  more : ∀ {n s}, P (n + 1) s → ∃ t, coreStep s = .next t ∧ P n t
  last : ∀ {s}, P 0 s → ∃ t, coreStep s = .next t ∧ Q t

section
variable {P : Nat → State → Prop} {Q : State → Prop} {s : State} {es : List Event}

/-- Transactions in between keep the operation, and each turn of the core takes it one further. -/
theorem Operation.completes (op : Operation P Q) (noReset : NoReset es)
    (pending : s.events = es ++ [.core]) (flight : P (coreTurns es) s) :
    ∃ t, runSteps (es.length + 1) s = .next t ∧ Q t := by
  induction es generalizing s with
  | nil =>
    obtain ⟨t, run, ended⟩ := op.last (op.kept flight (sameOperation_setEvents s []))
    exact ⟨t, runSteps_succ ((step_core pending).trans run) 0, ended⟩
  | cons e es ih =>
    have noReset' : NoReset es := fun reset => noReset (List.mem_cons_of_mem e reset)
    have flight' := op.kept flight (sameOperation_setEvents s (es ++ [.core]))
    cases e with
    | reset => exact absurd List.mem_cons_self noReset
    | host ht =>
      rw [show coreTurns (.host ht :: es) = coreTurns es from List.count_cons_of_ne (by simp)]
        at flight'
      obtain ⟨t, run⟩ := exec_busy (op.running flight') (decodeHt ht)
      have kept := op.kept flight' ((exec_effect run).sameOperation (op.running flight'))
      obtain ⟨t', run', ended⟩ := ih noReset' (exec_effect run).events_eq kept
      exact ⟨t', (runSteps_succ ((step_host pending).trans run) _).trans run', ended⟩
    | core =>
      rw [show coreTurns (.core :: es) = coreTurns es + 1 from List.count_cons_self] at flight'
      obtain ⟨t, run, further⟩ := op.more flight'
      obtain ⟨t', run', ended⟩ := ih noReset' (coreStep_next run).events_eq further
      exact ⟨t', (runSteps_succ ((step_core pending).trans run) _).trans run', ended⟩

/-- The command that starts the operation, then any transactions and the operation's turns. -/
theorem Operation.completes_from_command (op : Operation P Q) {ins : Instr} {s1 : State}
    (wf : ins.wellFormed = true) (pending : s.events = .host (encode ins) :: es ++ [.core])
    (noReset : NoReset es) (run : exec ins { s with events := es ++ [.core] } = .next s1)
    (start : P (coreTurns es) s1) : ∃ t, runSteps (es.length + 2) s = .next t ∧ Q t := by
  have first : step s = .next s1 := by
    rw [step_host pending, decodeHt_encode wf]
    exact run
  rw [runSteps_succ first]
  exact op.completes noReset (exec_effect run).events_eq start

end

/-! ## ENCRYPT -/

/-- The block has ended an operation with the result `b` and the key context of `s0`. -/
def Delivered (s0 : State) (b : Block) (t : State) : Prop :=
  t.phase = .idle ∧ t.done = true ∧ t.dout = b ∧ t.keyValid = true ∧ t.w = s0.w ∧
    t.nk = s0.nk ∧ t.nr = s0.nr

/-- The block holds the valid key of `s0`. -/
def KeyOf (s0 s : State) : Prop :=
  contextOk s = true ∧ s.keyValid = true ∧ s.w = s0.w ∧ s.nk = s0.nk ∧ s.nr = s0.nr

theorem KeyOf.deliver {s0 s : State} (key : KeyOf s0 s) (b : Block) :
    Delivered s0 b (deliver b s) := by
  obtain ⟨-, valid, w, nk, nr⟩ := key
  exact ⟨rfl, rfl, rfl, valid, w, nk, nr⟩

/-- ENC of the block `p`, with `n` full rounds left: the rounds below `rnd` are done
(spec/43_forward_round.md R188). -/
structure EncFlight (s0 : State) (p : Block) (n : Nat) (s : State) : Prop where
  phase : s.phase = .enc
  key : KeyOf s0 s
  low : 1 ≤ s.rnd.toNat
  left : s.rnd.toNat + n = s.nr.toNat
  state : s.st = fullRounds s0.w (s.rnd.toNat - 1) (addRoundKey s0.w p 0)

section
variable {s0 s : State} {p : Block} {n : Nat}

theorem EncFlight.range (flight : EncFlight s0 p n s) : encInRange s = true := by
  obtain ⟨context, -⟩ := flight.key
  exact (encInRange_iff s).mpr ⟨context, flight.low, flight.left ▸ Nat.le_add_right _ _⟩

theorem fullRounds_pred (w : Vector Word 60) {r : Nat} (low : 1 ≤ r) (b : Block) :
    fullRounds w r b = fullRound w r (fullRounds w (r - 1) b) := by
  obtain ⟨k, rfl⟩ : ∃ k, r = k + 1 := ⟨r - 1, (Nat.sub_add_cancel low).symm⟩
  rfl

theorem EncFlight.more (flight : EncFlight s0 p (n + 1) s) :
    ∃ t, coreStep s = .next t ∧ EncFlight s0 p n t := by
  have range := flight.range
  obtain ⟨phase, key, low, left, state⟩ := flight
  have next : (s.rnd + 1#4).toNat = s.rnd.toNat + 1 := toNat_add_one_four (by omega)
  refine ⟨_, coreStep_enc_more phase range (by omega), phase, key, ?_, ?_, ?_⟩
  all_goals dsimp only; rw [next]
  · omega
  · omega
  · obtain ⟨-, -, w, -, -⟩ := key
    rw [state, w, Nat.add_sub_cancel, fullRounds_pred s0.w low]

theorem EncFlight.last (flight : EncFlight s0 p 0 s) :
    ∃ t, coreStep s = .next t ∧ Delivered s0 (encryptBlock s0.w s0.nr.toNat p) t := by
  have last : s.rnd.toNat = s.nr.toNat := flight.left
  obtain ⟨-, -, w, -, nr⟩ := flight.key
  have result : finalRound s.w s.nr.toNat s.st = encryptBlock s0.w s0.nr.toNat p := by
    rw [flight.state, last, w, nr, encryptBlock]
  exact ⟨_, coreStep_enc_last flight.phase flight.range last, result ▸ flight.key.deliver _⟩

theorem encFlight_operation (s0 : State) (p : Block) :
    Operation (EncFlight s0 p) (Delivered s0 (encryptBlock s0.w s0.nr.toNat p)) where
  running flight := by rw [flight.phase]; decide
  kept flight same := by
    obtain ⟨_, _, _, _, _, _, _, rfl⟩ := same
    exact ⟨flight.phase, flight.key, flight.low, flight.left, flight.state⟩
  more := EncFlight.more
  last := EncFlight.last

end

/-! ## DECRYPT -/

/-- DEC of the block `c`, with `n` full inverse rounds left (spec/44_inverse_round.md R208). -/
structure DecFlight (s0 : State) (c : Block) (n : Nat) (s : State) : Prop where
  phase : s.phase = .dec
  key : KeyOf s0 s
  left : s.rnd.toNat = n
  high : n < s.nr.toNat
  state : invFullRounds s0.w n s.st =
    invFullRounds s0.w (s0.nr.toNat - 1) (addRoundKey s0.w c s0.nr.toNat)

section
variable {s0 s : State} {c : Block} {n : Nat}

theorem DecFlight.range (flight : DecFlight s0 c n s) : decInRange s = true := by
  obtain ⟨context, -⟩ := flight.key
  exact (decInRange_iff s).mpr ⟨context, flight.left ▸ flight.high⟩

theorem DecFlight.more (flight : DecFlight s0 c (n + 1) s) :
    ∃ t, coreStep s = .next t ∧ DecFlight s0 c n t := by
  have range := flight.range
  obtain ⟨phase, key, left, high, state⟩ := flight
  have more : 1 ≤ s.rnd.toNat := by omega
  have next : (s.rnd - 1#4).toNat = n := by rw [toNat_sub_one_four more, left, Nat.add_sub_cancel]
  refine ⟨_, coreStep_dec_more phase range more, phase, key, next, Nat.lt_of_succ_lt high, ?_⟩
  obtain ⟨-, -, w, -, -⟩ := key
  rw [← state, left, w]
  rfl

theorem DecFlight.last (flight : DecFlight s0 c 0 s) :
    ∃ t, coreStep s = .next t ∧ Delivered s0 (decryptBlock s0.w s0.nr.toNat c) t := by
  obtain ⟨-, -, w, -, -⟩ := flight.key
  have result : invFinalRound s.w s.st = decryptBlock s0.w s0.nr.toNat c := by
    rw [decryptBlock, ← flight.state, w]
    rfl
  exact ⟨_, coreStep_dec_last flight.phase flight.range flight.left,
    result ▸ flight.key.deliver _⟩

theorem decFlight_operation (s0 : State) (c : Block) :
    Operation (DecFlight s0 c) (Delivered s0 (decryptBlock s0.w s0.nr.toNat c)) where
  running flight := by rw [flight.phase]; decide
  kept flight same := by
    obtain ⟨_, _, _, _, _, _, _, rfl⟩ := same
    exact ⟨flight.phase, flight.key, flight.left, flight.high, flight.state⟩
  more := DecFlight.more
  last := DecFlight.last

end

/-! ## LOAD_KEY -/

/-- Schedules that agree on the key words agree on the words expanded from them
(spec/42_key_schedule.md R168). -/
theorem ScheduleUpTo.unique {v w : Vector Word 60} {nk n : Nat} (pos : 0 < nk)
    (hv : ScheduleUpTo v nk n) (hw : ScheduleUpTo w nk n)
    (key : ∀ j, j < nk → v.getD j 0 = w.getD j 0) :
    ∀ j, j < n → v.getD j 0 = w.getD j 0 := by
  intro j
  induction j using Nat.strong_induction_on with
  | _ j ih =>
    intro hj
    by_cases below : j < nk
    · exact key j below
    · have low : nk ≤ j := Nat.le_of_not_lt below
      rw [hv j low hj, hw j low hj]
      exact expandWord_congr pos low fun l hl => ih l hl (by omega)

theorem ScheduleUpTo.expandFrom {w : Vector Word 60} {nk i : Nat} (h : ScheduleUpTo w nk i)
    (pos : 0 < nk) (low : nk ≤ i) (n : Nat) (high : i + n ≤ 60) :
    ScheduleUpTo (expandFrom w nk i n) nk (i + n) := by
  induction n generalizing w i with
  | zero => exact h
  | succ n ih =>
    have := ih (h.expandAt pos low (by omega)) (by omega) (by omega)
    rwa [show i + 1 + n = i + (n + 1) by omega] at this

/-- The schedule steps from `i` on leave the words below. -/
theorem getD_expandFrom_below {w : Vector Word 60} {nk i j : Nat} (below : j < i) (n : Nat)
    (high : j < 60) : (expandFrom w nk i n).getD j 0 = w.getD j 0 := by
  induction n generalizing w i with
  | zero => rfl
  | succ n ih =>
    rw [expandFrom, ih (by omega), getD_expandAt _ _ _ _ high, if_neg (by omega)]

theorem expandKey_schedule {nk : Nat} (pos : 0 < nk) (size : nk ≤ 8) (key : Vector Word 8) :
    ScheduleUpTo (expandKey nk key) nk (4 * (nk + 7)) := by
  have empty : ScheduleUpTo (copyKey nk key (Vector.replicate 60 0)) nk nk :=
    fun j low high => absurd high (Nat.not_lt.mpr low)
  have := empty.expandFrom pos (le_refl nk) (4 * (nk + 7) - nk) (by omega)
  rwa [show nk + (4 * (nk + 7) - nk) = 4 * (nk + 7) by omega] at this

theorem getD_expandKey_key {nk j : Nat} (size : nk ≤ 8) (key : Vector Word 8) (hj : j < nk) :
    (expandKey nk key).getD j 0 = key.getD j 0 := by
  rw [expandKey, getD_expandFrom_below hj _ (by omega), getD_copyKey _ _ _ _ (by omega), if_pos hj]

/-- EXPAND of the `nk` words of `key`, with `n` micro-steps left before the last
(spec/42_key_schedule.md R162, R168). -/
structure ExpandFlight (nk : Nat) (key : Vector Word 8) (dout : Block) (n : Nat) (s : State) :
    Prop where
  phase : s.phase = .expand
  context : contextOk s = true
  words : s.nk.toNat = nk
  low : nk ≤ s.i.toNat
  left : s.i.toNat + n + 1 = 4 * (nk + 7)
  copied : ∀ j, j < nk → s.w.getD j 0 = key.getD j 0
  schedule : ScheduleUpTo s.w nk s.i.toNat
  dout : s.dout = dout

/-- The block has ended EXPAND of the `nk` words of `key`. -/
def Expanded (nk : Nat) (key : Vector Word 8) (dout : Block) (t : State) : Prop :=
  t.phase = .idle ∧ t.keyValid = true ∧ t.done = true ∧ t.nk.toNat = nk ∧ t.nr.toNat = nk + 6 ∧
    t.dout = dout ∧ ∀ j, j < 4 * (nk + 7) → t.w.getD j 0 = (expandKey nk key).getD j 0

section
variable {nk n : Nat} {key : Vector Word 8} {dout : Block} {s : State}

/-- Nk is a key size, and Nr is six more. -/
theorem ExpandFlight.size (flight : ExpandFlight nk key dout n s) :
    0 < nk ∧ nk ≤ 8 ∧ s.nr.toNat = nk + 6 := by
  obtain ⟨sizes, rounds⟩ := (contextOk_iff s).mp flight.context
  rw [flight.words] at sizes rounds
  omega

theorem ExpandFlight.range (flight : ExpandFlight nk key dout n s) : expandInRange s = true := by
  obtain ⟨-, -, rounds⟩ := flight.size
  have left := flight.left
  exact (expandInRange_iff s).mpr ⟨flight.context, flight.words.symm ▸ flight.low, by omega⟩

/-- The next word extends the schedule and leaves the key words. -/
theorem ExpandFlight.expandAt (flight : ExpandFlight nk key dout n s) :
    ScheduleUpTo (expandAt s.w nk s.i.toNat) nk (s.i.toNat + 1) ∧
      ∀ j, j < nk → (Machine.expandAt s.w nk s.i.toNat).getD j 0 = key.getD j 0 := by
  obtain ⟨pos, size, -⟩ := flight.size
  have low := flight.low
  refine ⟨flight.schedule.expandAt pos low (expandInRange_index flight.range), fun j hj => ?_⟩
  rw [getD_expandAt _ _ _ _ (by omega), if_neg (by omega), flight.copied j hj]

theorem ExpandFlight.more (flight : ExpandFlight nk key dout (n + 1) s) :
    ∃ t, coreStep s = .next t ∧ ExpandFlight nk key dout n t := by
  obtain ⟨-, -, rounds⟩ := flight.size
  obtain ⟨schedule, copied⟩ := flight.expandAt
  have range := flight.range
  have next := expandInRange_next_index range
  obtain ⟨phase, context, rfl, low, left, -, -, dout⟩ := flight
  refine ⟨_, coreStep_expand_more phase range (by omega), phase, context, rfl, ?_, ?_, copied, ?_,
    dout⟩
  all_goals dsimp only; rw [next]
  · omega
  · omega
  · exact schedule

theorem ExpandFlight.last (flight : ExpandFlight nk key dout 0 s) :
    ∃ t, coreStep s = .next t ∧ Expanded nk key dout t := by
  obtain ⟨pos, size, rounds⟩ := flight.size
  obtain ⟨schedule, copied⟩ := flight.expandAt
  have range := flight.range
  obtain ⟨phase, -, rfl, -, left, -, -, dout⟩ := flight
  rw [show s.i.toNat + 1 = 4 * (s.nk.toNat + 7) from left] at schedule
  refine ⟨_, coreStep_expand_last phase range (by omega), rfl, rfl, rfl, rfl, rounds, dout, ?_⟩
  exact schedule.unique pos (expandKey_schedule pos size key) fun j hj =>
    (copied j hj).trans (getD_expandKey_key size key hj).symm

theorem expandFlight_operation (nk : Nat) (key : Vector Word 8) (dout : Block) :
    Operation (ExpandFlight nk key dout) (Expanded nk key dout) where
  running flight := by rw [flight.phase]; decide
  kept flight same := by
    obtain ⟨_, _, _, _, _, _, _, rfl⟩ := same
    exact ⟨flight.phase, flight.context, flight.words, flight.low, flight.left, flight.copied,
      flight.schedule, flight.dout⟩
  more := ExpandFlight.more
  last := ExpandFlight.last

end

/-! ## The starts -/

theorem encFlight_start {s : State} (keylen : BitVec 6) (context : contextOk s = true)
    (valid : s.keyValid = true) {n : Nat} (left : n + 1 = s.nr.toNat) (events : List Event) :
    EncFlight s s.din n (acceptEncrypt (storeCtrl 2#3 keylen { s with events := events })) where
  phase := rfl
  key := ⟨context, valid, rfl, rfl, rfl⟩
  low := le_refl 1
  left := (Nat.add_comm 1 n).trans left
  state := rfl

theorem decFlight_start {s : State} (keylen : BitVec 6) (context : contextOk s = true)
    (valid : s.keyValid = true) {n : Nat} (left : n + 1 = s.nr.toNat) (events : List Event) :
    DecFlight s s.din n (acceptDecrypt (storeCtrl 3#3 keylen { s with events := events })) where
  phase := rfl
  key := ⟨context, valid, rfl, rfl, rfl⟩
  left := (toNat_sub_one_four (r := s.nr) (by omega)).trans (by omega)
  high := (by omega : n < s.nr.toNat)
  state := by rw [show n = s.nr.toNat - 1 by omega]; rfl

theorem expandFlight_start {s : State} {keylen : BitVec 6} (size : keylenAccepted keylen = true)
    {n : Nat} (left : n + 1 = 4 * (keyWords keylen + 7) - keyWords keylen) (events : List Event) :
    ExpandFlight (keyWords keylen) s.key s.dout n
      (acceptLoadKey keylen (storeCtrl 1#3 keylen { s with events := events })) := by
  have i := acceptLoadKey_i_toNat size (storeCtrl 1#3 keylen { s with events := events })
  have words := keyWords_sizes size
  exact
    { phase := rfl
      context := acceptLoadKey_contextOk size _
      words := acceptLoadKey_nk_toNat size _
      low := i.ge
      left := by rw [i]; omega
      copied := fun j hj => (getD_copyKey _ _ _ _ (by omega)).trans (if_pos hj)
      schedule := fun j low high => absurd high (by rw [i]; omega)
      dout := rfl }

/-! ## Left alone -/

/-- A busy block has micro-steps left, an idle one has none. -/
theorem BlockInv.stepsLeft_pos_iff {s : State} (h : BlockInv s) :
    0 < stepsLeft s ↔ s.phase ≠ .idle := by
  unfold stepsLeft
  split
  next phase => simp [phase]
  next phase =>
    obtain ⟨-, range, -⟩ := h.expanding phase
    obtain ⟨-, -, high⟩ := (expandInRange_iff s).mp range
    simp [phase, high]
  next phase =>
    obtain ⟨-, range⟩ := h.encrypting phase
    obtain ⟨-, -, high⟩ := (encInRange_iff s).mp range
    simp [phase]
    omega
  next phase => simp [phase]

/-- The longest operation is EXPAND of eight words (spec/70_reset_and_hazards.md R280). -/
theorem BlockInv.stepsLeft_le {s : State} (h : BlockInv s) : stepsLeft s ≤ 52 := by
  unfold stepsLeft
  split
  next => omega
  next phase =>
    obtain ⟨-, range, -⟩ := h.expanding phase
    obtain ⟨context, low, -⟩ := (expandInRange_iff s).mp range
    obtain ⟨size, rounds⟩ := (contextOk_iff s).mp context
    omega
  next => omega
  next => omega

/-- A micro-step is one fewer left. -/
theorem CoreEffect.stepsLeft_succ {s t : State} (effect : CoreEffect s t)
    (running : s.phase ≠ .idle) : stepsLeft t + 1 = stepsLeft s := by
  cases effect with
  | wait idle => exact absurd idle running
  | expand phase range more =>
    have next := expandInRange_next_index range
    simp only [stepsLeft, phase, next]
    omega
  | expandLast phase range last =>
    simp only [stepsLeft, phase]
    omega
  | enc phase range more =>
    have next : (s.rnd + 1#4).toNat = s.rnd.toNat + 1 := toNat_add_one_four (by omega)
    simp only [stepsLeft, phase, next]
    omega
  | encLast phase range last =>
    simp only [stepsLeft, deliver_phase, phase]
    omega
  | dec phase range more =>
    have next := toNat_sub_one_four more
    simp only [stepsLeft, phase, next]
    omega
  | decLast phase range last =>
    simp only [stepsLeft, deliver_phase, phase]
    omega

/-- Left alone, the block takes one of the micro-steps left at each step. -/
theorem BlockInv.runSteps_quiet {s : State} (h : BlockInv s) (quiet : s.events = []) {k : Nat}
    (hk : k ≤ stepsLeft s) :
    ∃ t, runSteps k s = .next t ∧ BlockInv t ∧ stepsLeft t + k = stepsLeft s := by
  induction k generalizing s with
  | zero => exact ⟨s, rfl, h, rfl⟩
  | succ k ih =>
    have running := h.stepsLeft_pos_iff.mp (by omega)
    obtain ⟨t, run⟩ := h.coreStep_next
    have effect := Machine.coreStep_next run
    have fewer := effect.stepsLeft_succ running
    obtain ⟨t', run', inv, left⟩ :=
      ih (effect.blockInv h) (effect.events_eq.trans quiet) (by omega)
    exact ⟨t', (runSteps_succ ((step_quiet quiet).trans run) k).trans run', inv, by omega⟩

end Sys2Proof.Machine

/-! ## The statements -/

namespace Sys2Proof.Laws

open Sys2Proof.Machine

/-- Settles O51: EXPAND's schedule is the one of `ExpandKey`, under every interleaving. -/
theorem loadKeyEndsWithTheExpandedKey : Obligations.LoadKeyEndsWithTheExpandedKey := by
  unfold Obligations.LoadKeyEndsWithTheExpandedKey
  intro s keylen es idle sizes pending noReset nk turns
  have size := (keylenAccepted_iff keylen).mpr sizes
  exact (expandFlight_operation nk s.key s.dout).completes_from_command rfl pending noReset
    (exec_loadKey_accepted keylen idle size) (expandFlight_start size turns _)

/-- Settles O52: ENC's rounds are those of `Encrypt`, under every interleaving. -/
theorem encryptEndsWithTheCiphertext : Obligations.EncryptEndsWithTheCiphertext := by
  unfold Obligations.EncryptEndsWithTheCiphertext
  intro s keylen es idle valid context pending noReset turns
  exact (encFlight_operation s s.din).completes_from_command rfl pending noReset
    (exec_encrypt_accepted keylen idle valid) (encFlight_start keylen context valid turns _)

/-- Settles O53: DEC's rounds are those of `Decrypt`, under every interleaving. -/
theorem decryptEndsWithThePlaintext : Obligations.DecryptEndsWithThePlaintext := by
  unfold Obligations.DecryptEndsWithThePlaintext
  intro s keylen es idle valid context pending noReset turns
  exact (decFlight_operation s s.din).completes_from_command rfl pending noReset
    (exec_decrypt_accepted keylen idle valid context)
    (decFlight_start keylen context valid turns _)

/-- Settles O54: the micro-steps left go down by one, and are none exactly when idle. -/
theorem operationEndsAfterItsMicroSteps : Obligations.OperationEndsAfterItsMicroSteps := by
  unfold Obligations.OperationEndsAfterItsMicroSteps
  intro s inv quiet
  refine ⟨inv.stepsLeft_le, ?_, fun k hk => ?_⟩
  · obtain ⟨t, run, inv', left⟩ := inv.runSteps_quiet quiet (le_refl (stepsLeft s))
    refine ⟨t, run, ?_⟩
    by_contra running
    have := inv'.stepsLeft_pos_iff.mpr running
    omega
  · obtain ⟨t, run, inv', left⟩ := inv.runSteps_quiet quiet (Nat.le_of_lt hk)
    exact ⟨t, run, inv'.stepsLeft_pos_iff.mp (by omega)⟩

end Sys2Proof.Laws
end
